-- ==== Sys2Proof/Word.lean ====
section
/-! DEFINITION. The machine's two widths: bytes of the program buffer and 64-bit patterns (00_scope.md R7, R10). -/

namespace Sys2Proof

/-- `u8`: one byte of the program buffer, an opcode tag or a register index (R10). -/
abbrev Byte := BitVec 8

/-- `u64` and `f64` alike: a 64-bit pattern, read as an unsigned number modulo 2^64 or as an IEEE-754 binary64 (R10). -/
abbrev Word := BitVec 64

end Sys2Proof
end

