-- ==== Sys2Proof/Config.lean ====
section
/-! DEFINITION. What the spec leaves to an implementation (00_scope.md R8): the parameters of a run as plain data, and the
free values, which have no body. The parameters are carried in State, so a statement about every state holds for every
value of them; their reference values are in Sys2Proof/Decode.lean. -/

namespace Sys2Proof

/-- The 22 members of the opcode set: 21 named tags and the unnamed one (R71). -/
inductive Tag where
  | halt | in_ | out
  | add | sub | mul | div | sqrt
  | pop | popReg | pushVal | pushReg
  | jmp | jif | call | ret
  | less | greater | or | and | not
  | rsvd22
  deriving DecidableEq, Repr

/-- The instruction formats of R70; `unknown` is the unnamed tag's (R80). -/
inductive Format where
  | F0 | FR | FL | FD | unknown
  deriving DecidableEq, Repr

/-- ENDIAN, the byte order of 8-byte operands (R53). -/
inductive Endian where
  | little | big
  deriving DecidableEq, Repr

/-- HEADER_TARGET_POLICY: what a jump to a target inside the header does (R201). -/
inductive HeaderPolicy where
  | fault | execute
  deriving DecidableEq, Repr

/-- NOT_MODE: the two readings of NOT (R236). -/
inductive NotMode where
  | negate | boolean
  deriving DecidableEq, Repr

/-- The parameters of R8 that are plain data. No instruction and no start changes them (R302). PLEN is given with each
program buffer, and NAN_OF is the free value `Config.nanChoice`. -/
structure Params where
  /-- OPCODE_BYTE, one byte a tag, in the order of `Tag.index` (R72). -/
  opcodes : List Byte
  /-- ACCEPTED_HEADERS, each an 8-byte string (R79). -/
  acceptedHeaders : List (List Byte)
  /-- CURRENT_HEADER, the one the assembler writes (R79). -/
  currentHeader : List Byte
  /-- ENDIAN (R53). -/
  endian : Endian
  /-- OPSTACK_CAP (R30, R104). -/
  opstackCap : Nat
  /-- CALLSTACK_CAP (R31, R106). -/
  callstackCap : Nat
  /-- RESET_NAN (R25). -/
  resetNan : Word
  /-- HEADER_TARGET_POLICY (R201). -/
  headerPolicy : HeaderPolicy
  /-- JIF_UNTAKEN_CHECK (R204). -/
  jifUntakenCheck : Bool
  /-- NOT_MODE (R236). -/
  notMode : NotMode
  deriving DecidableEq, Repr

/-- An arithmetic operation with its operand patterns: the argument of NAN_OF (R151). -/
inductive FpCall where
  | add (a b : Word)
  | sub (a b : Word)
  | mul (a b : Word)
  | div (a b : Word)
  | sqrt (x : Word)
  deriving DecidableEq, Repr

/-- The free value behind NAN_OF (R151): a fixed function of the operation and the operand patterns. Nothing can be
proved of it; `Machine.F64.nanOf` keeps the one bound the spec sets, that the result is a NaN.
DESIGN CHOICE, safe: log entry 6. -/
opaque Config.nanChoice : FpCall → Word

/-- The free 64-bit values that stand for `ip` and the registers after an error (R262).
DESIGN CHOICE, safe: log entry 9. -/
opaque Config.freeWord : Nat → Word

/-- The free lists that stand for the contents of a stack after an error (R262).
DESIGN CHOICE, safe: log entry 9. -/
opaque Config.freeStack : Nat → List Word

end Sys2Proof
end

