-- ==== Sys2Proof/Machine/Float.lean ====
section
/-! DEFINITION. IEEE-754 binary64 arithmetic (42_arithmetic.md R150, R151; 45_relational.md R230). Every finite number is
an exact integer count of the smallest subnormal, 2^-1074, called a unit here. An operation computes its exact result as a
fraction of units and rounds it once, to nearest with ties to even (R150, the spec's decision D14; log entry 21). -/

namespace Sys2Proof.Machine.F64

/-- The sign bit. -/
def sign (w : Word) : Bool := w.msb

/-- The pattern without its sign bit. -/
def mag (w : Word) : Nat := w.toNat % 2 ^ 63

/-- The magnitude pattern of infinity. -/
def infMag : Nat := 0x7FF0000000000000

/-- The pattern with a sign and a magnitude. -/
def pack (negative : Bool) (m : Nat) : Word := BitVec.ofNat 64 ((if negative then 2 ^ 63 else 0) + m)

/-- A NaN: exponent all ones and a non-zero fraction. -/
def isNaN (w : Word) : Bool := decide (infMag < mag w)

/-- An infinity of either sign. -/
def isInf (w : Word) : Bool := mag w == infMag

/-- A zero of either sign. -/
def isZero (w : Word) : Bool := mag w == 0

/-- Neither a NaN nor an infinity. -/
def isFinite (w : Word) : Bool := decide (mag w < infMag)

/-- `+0.0`. -/
def posZero : Word := 0x0000000000000000

/-- `-0.0`. -/
def negZero : Word := 0x8000000000000000

/-- IEEE-754 `negate`: the sign bit flipped and nothing else (R236, G4). -/
def negate (w : Word) : Word := w ^^^ 0x8000000000000000

/-- The significand of a magnitude pattern as an integer: hidden bit and fraction, or the fraction of a subnormal. -/
def significand (m : Nat) : Nat := if m / 2 ^ 52 = 0 then m % 2 ^ 52 else 2 ^ 52 + m % 2 ^ 52

/-- The power of two, in units, that the significand is multiplied by. -/
def scale (m : Nat) : Nat := m / 2 ^ 52 - 1

/-- The size of a magnitude pattern in units. Of infinity it is 2^2098, above every finite size, so that comparing sizes
compares infinities too (R230). -/
def units (m : Nat) : Nat := significand m * 2 ^ scale m

/-- The signed size of a pattern that is no NaN, in units. -/
def value (w : Word) : Int := if sign w then -(units (mag w) : Int) else units (mag w)

/-- Round `num / den` units to a magnitude pattern, to nearest with ties to even; past the largest finite number the
result is infinity (R150). The significand field and the exponent field are added, so that a carry out of the
significand moves to the next exponent. -/
def roundMag (num den : Nat) : Nat :=
  let drop := Nat.log2 (num / den) - 52
  let step := den * 2 ^ drop
  let low := num / step
  let rest := num % step
  let rounded := if step < 2 * rest ∨ (2 * rest = step ∧ low % 2 = 1) then low + 1 else low
  min infMag (drop * 2 ^ 52 + rounded)

/-- NAN_OF (R151): the free value if it is a NaN, else the free value with exponent and quiet bit set, which is one.
DESIGN CHOICE, safe: log entry 6. -/
def nanOf (c : FpCall) : Word :=
  if isNaN (Config.nanChoice c) then Config.nanChoice c else Config.nanChoice c ||| 0x7FF8000000000000

/-- The sum of two numbers that are no NaN, with the pattern to give where the result is NaN (R155). An exact sum of zero is
`+0.0` unless both operands are negative. -/
def addNumbers (nan a b : Word) : Word :=
  if isInf a then (if isInf b && (sign a != sign b) then nan else a)
  else if isInf b then b
  else
    let sum := value a + value b
    if sum = 0 then (if sign a && sign b then negZero else posZero)
    else pack (decide (sum < 0)) (roundMag sum.natAbs 1)

/-- `fadd` (R150, R151, R155). -/
def fadd (a b : Word) : Word :=
  if isNaN a || isNaN b then nanOf (.add a b) else addNumbers (nanOf (.add a b)) a b

/-- `fsub` (R150, R151, R156): the sum with the second operand negated. -/
def fsub (a b : Word) : Word :=
  if isNaN a || isNaN b then nanOf (.sub a b) else addNumbers (nanOf (.sub a b)) a (negate b)

/-- `fmul` (R150, R151, R157). The product of two sizes counts 2^-2148, so a unit is 2^1074 of it. -/
def fmul (a b : Word) : Word :=
  let negative := sign a != sign b
  if isNaN a || isNaN b then nanOf (.mul a b)
  else if isInf a || isInf b then (if isZero a || isZero b then nanOf (.mul a b) else pack negative infMag)
  else pack negative (roundMag (units (mag a) * units (mag b)) (2 ^ 1074))

/-- `fdiv` (R150, R151, R158): division by zero is a result, not an error. -/
def fdiv (a b : Word) : Word :=
  let negative := sign a != sign b
  if isNaN a || isNaN b then nanOf (.div a b)
  else if isInf a then (if isInf b then nanOf (.div a b) else pack negative infMag)
  else if isInf b then pack negative 0
  else if isZero b then (if isZero a then nanOf (.div a b) else pack negative infMag)
  else pack negative (roundMag (units (mag a) * 2 ^ 1074) (units (mag b)))

/-- The binary digits of an integer square root, from bit `k - 1` down. -/
def isqrtFrom : Nat → Nat → Nat → Nat
  | 0, root, _ => root
  | k + 1, root, n => if (root + 2 ^ k) * (root + 2 ^ k) ≤ n then isqrtFrom k (root + 2 ^ k) n else isqrtFrom k root n

/-- The largest integer whose square is at most `n`. -/
def isqrt (n : Nat) : Nat := isqrtFrom (Nat.log2 n / 2 + 1) 0 n

/-- The magnitude of the square root of a positive finite magnitude. The radicand in units is
`significand * 2^(scale + 1074)`; its root is taken with at least 55 binary digits, and a last half digit says whether
the root was inexact, so that the one rounding sees on which side of a midpoint it lies (R150, R159). -/
def sqrtMag (m : Nat) : Nat :=
  let exponent := scale m + 1074
  let radicand := significand m * 2 ^ (108 + exponent % 2)
  let root := isqrt radicand
  let inexact := if root * root = radicand then 0 else 1
  roundMag ((2 * root + inexact) * 2 ^ (exponent / 2 - 54)) 2

/-- `fsqrt` (R150, R151, R159). -/
def fsqrt (x : Word) : Word :=
  if isNaN x then nanOf (.sqrt x)
  else if isZero x then x
  else if sign x then nanOf (.sqrt x)
  else if isInf x then x
  else pack false (sqrtMag (mag x))

end Sys2Proof.Machine.F64
end

