-- ==== Sys2Proof/Syntax.lean ====
section
/-! DEFINITION. The instructions: one constructor for each row of spec/opcode_table.json (30_encoding.md R71, R72). -/

namespace Sys2Proof

/-- One instruction with its operand bytes assembled. A register operand is the byte as it stands in the buffer (R74);
a literal is a 64-bit pattern (R75); a displacement is the 64-bit field (R76). -/
inductive Instr where
  /-- HALT (R130). -/
  | halt
  /-- IN (R132). -/
  | in_
  /-- OUT (R135). -/
  | out
  /-- ADD (R155). -/
  | add
  /-- SUB (R156). -/
  | sub
  /-- MUL (R157). -/
  | mul
  /-- DIV (R158). -/
  | div
  /-- SQRT (R159). -/
  | sqrt
  /-- POP (R181). -/
  | pop
  /-- POP_REG with its register byte (R183). -/
  | popReg (reg : Byte)
  /-- PUSH_VAL with its literal (R184). -/
  | pushVal (imm : Word)
  /-- PUSH_REG with its register byte (R185). -/
  | pushReg (reg : Byte)
  /-- JMP with its displacement (R203). -/
  | jmp (disp : Word)
  /-- JIF with its displacement (R204). -/
  | jif (disp : Word)
  /-- CALL with its displacement (R205). -/
  | call (disp : Word)
  /-- RET (R206). -/
  | ret
  /-- LESS (R232). -/
  | less
  /-- GREATER (R233). -/
  | greater
  /-- OR (R234). -/
  | or
  /-- AND (R235). -/
  | and
  /-- NOT (R236). -/
  | not
  /-- RSVD22, the unnamed 22nd member (R80). -/
  | rsvd22
  deriving DecidableEq, Repr

end Sys2Proof
end

