-- ==== Sys2Proof/WellFormed.lean ====
section
/-! DEFINITION. Which instructions are legal encodings (30_encoding.md R74, R78): a register byte is 0 to 3, and every
literal and every displacement is legal. -/

namespace Sys2Proof

/-- A register byte names one of the four registers (R74). -/
abbrev RegByteOk (reg : Byte) : Prop := reg.toNat ≤ 3

/-- The check of R78, one line for each constructor. -/
def Instr.wellFormed : Instr → Bool
  | .halt => true
  | .in_ => true
  | .out => true
  | .add => true
  | .sub => true
  | .mul => true
  | .div => true
  | .sqrt => true
  | .pop => true
  | .popReg reg => decide (RegByteOk reg)
  | .pushVal _ => true
  | .pushReg reg => decide (RegByteOk reg)
  | .jmp _ => true
  | .jif _ => true
  | .call _ => true
  | .ret => true
  | .less => true
  | .greater => true
  | .or => true
  | .and => true
  | .not => true
  | .rsvd22 => true

end Sys2Proof
end

