-- ==== Sys2Proof/Decode.lean ====
section
/-! DEFINITION. The decoder of 40_loop.md R108 as a total function on bytes that rejects by name, the encoder written
from the same tables of 30_encoding.md (R70, R72, R73), and the reference values of the parameters (00_scope.md R8). -/

namespace Sys2Proof

/-- Every tag, in the listing order of R72. -/
def Tag.all : List Tag :=
  [.halt, .in_, .out, .add, .sub, .mul, .div, .sqrt, .pop, .popReg, .pushVal, .pushReg, .jmp, .jif, .call, .ret,
    .less, .greater, .or, .and, .not, .rsvd22]

/-- A tag's place in the listing order of R72. -/
def Tag.index : Tag → Nat
  | .halt => 0
  | .in_ => 1
  | .out => 2
  | .add => 3
  | .sub => 4
  | .mul => 5
  | .div => 6
  | .sqrt => 7
  | .pop => 8
  | .popReg => 9
  | .pushVal => 10
  | .pushReg => 11
  | .jmp => 12
  | .jif => 13
  | .call => 14
  | .ret => 15
  | .less => 16
  | .greater => 17
  | .or => 18
  | .and => 19
  | .not => 20
  | .rsvd22 => 21

/-- The format of each tag (R72, R73). -/
def Tag.format : Tag → Format
  | .halt => .F0
  | .in_ => .F0
  | .out => .F0
  | .add => .F0
  | .sub => .F0
  | .mul => .F0
  | .div => .F0
  | .sqrt => .F0
  | .pop => .F0
  | .popReg => .FR
  | .pushVal => .FL
  | .pushReg => .FR
  | .jmp => .FD
  | .jif => .FD
  | .call => .FD
  | .ret => .F0
  | .less => .F0
  | .greater => .F0
  | .or => .F0
  | .and => .F0
  | .not => .F0
  | .rsvd22 => .unknown

/-- `operand_len` of R102. For the unnamed tag no operand is read: decoding ends at its opcode byte (R80). -/
def Format.operandLen : Format → Nat
  | .F0 => 0
  | .FR => 1
  | .FL => 8
  | .FD => 8
  | .unknown => 0

/-- The length in bytes of an instruction of a format (R70, R73). -/
def Format.length (f : Format) : Nat := 1 + f.operandLen

/-- The longest instruction (R70). -/
def maxLength : Nat := 9

/-- The tag an instruction stands for. -/
def Instr.tag : Instr → Tag
  | .halt => .halt
  | .in_ => .in_
  | .out => .out
  | .add => .add
  | .sub => .sub
  | .mul => .mul
  | .div => .div
  | .sqrt => .sqrt
  | .pop => .pop
  | .popReg _ => .popReg
  | .pushVal _ => .pushVal
  | .pushReg _ => .pushReg
  | .jmp _ => .jmp
  | .jif _ => .jif
  | .call _ => .call
  | .ret => .ret
  | .less => .less
  | .greater => .greater
  | .or => .or
  | .and => .and
  | .not => .not
  | .rsvd22 => .rsvd22

/-- OPCODE_BYTE (R72). -/
def Params.opcodeByte (p : Params) (t : Tag) : Byte := p.opcodes.getD t.index 0

/-- The inverse of OPCODE_BYTE on its image; `none` outside the enumeration (R77, R108). -/
def Params.tagOf (p : Params) (b : Byte) : Option Tag := Tag.all.find? fun t => p.opcodeByte t == b

/-- The number whose little-endian bytes are given (R53). -/
def littleWord : List Byte → Word
  | [] => 0
  | b :: bs => b.setWidth 64 ||| (littleWord bs <<< 8)

/-- `rd_u64` on the eight bytes of a field, in byte order ENDIAN (R53). -/
def wordOfBytes (e : Endian) (bs : List Byte) : Word :=
  match e with
  | .little => littleWord bs
  | .big => littleWord bs.reverse

/-- The `n` low bytes of a pattern, least significant first. -/
def littleBytes : Nat → Word → List Byte
  | 0, _ => []
  | n + 1, w => w.setWidth 8 :: littleBytes n (w >>> 8)

/-- The eight bytes of a field as the buffer holds them, in byte order ENDIAN (R53, R70). -/
def bytesOfWord (e : Endian) (w : Word) : List Byte :=
  match e with
  | .little => littleBytes 8 w
  | .big => (littleBytes 8 w).reverse

/-- Why bytes do not decode (R101, R102, R103, R77). -/
inductive DecodeError where
  /-- No byte is left in the buffer (R101). -/
  | endOfBuffer
  /-- The opcode byte is outside the enumeration (R77). -/
  | unknownOpcode
  /-- Fewer operand bytes are left than the format needs (R102). -/
  | truncated
  /-- The register byte is greater than 3 (R103). -/
  | unknownRegister
  deriving DecidableEq, Repr

/-- Format FR: one register byte, in range (R74, R102, R103). -/
def decodeReg (make : Byte → Instr) : List Byte → Except DecodeError (Instr × List Byte)
  | [] => .error .truncated
  | reg :: rest => if reg.toNat ≤ 3 then .ok (make reg, rest) else .error .unknownRegister

/-- Formats FL and FD: an 8-byte field in byte order ENDIAN (R75, R76, R102). -/
def decodeWord (e : Endian) (make : Word → Instr) (bytes : List Byte) : Except DecodeError (Instr × List Byte) :=
  if bytes.length < 8 then .error .truncated else .ok (make (wordOfBytes e (bytes.take 8)), bytes.drop 8)

/-- The operand bytes of a tag (R70, R73). The unnamed tag's are not guessed (R80). -/
def decodeOperand (e : Endian) (t : Tag) (rest : List Byte) : Except DecodeError (Instr × List Byte) :=
  match t with
  | .halt => .ok (.halt, rest)
  | .in_ => .ok (.in_, rest)
  | .out => .ok (.out, rest)
  | .add => .ok (.add, rest)
  | .sub => .ok (.sub, rest)
  | .mul => .ok (.mul, rest)
  | .div => .ok (.div, rest)
  | .sqrt => .ok (.sqrt, rest)
  | .pop => .ok (.pop, rest)
  | .popReg => decodeReg .popReg rest
  | .pushVal => decodeWord e .pushVal rest
  | .pushReg => decodeReg .pushReg rest
  | .jmp => decodeWord e .jmp rest
  | .jif => decodeWord e .jif rest
  | .call => decodeWord e .call rest
  | .ret => .ok (.ret, rest)
  | .less => .ok (.less, rest)
  | .greater => .ok (.greater, rest)
  | .or => .ok (.or, rest)
  | .and => .ok (.and, rest)
  | .not => .ok (.not, rest)
  | .rsvd22 => .ok (.rsvd22, rest)

/-- Decode the instruction at the head of the bytes and return the bytes after it. The checks come in the order of R109:
fetch bound, opcode class, truncation, register range. -/
def decode (p : Params) : List Byte → Except DecodeError (Instr × List Byte)
  | [] => .error .endOfBuffer
  | b :: rest =>
    match p.tagOf b with
    | none => .error .unknownOpcode
    | some t => decodeOperand p.endian t rest

/-- The bytes after the opcode byte (R70). -/
def Instr.operandBytes (e : Endian) : Instr → List Byte
  | .popReg reg => [reg]
  | .pushReg reg => [reg]
  | .pushVal imm => bytesOfWord e imm
  | .jmp disp => bytesOfWord e disp
  | .jif disp => bytesOfWord e disp
  | .call disp => bytesOfWord e disp
  | .halt => []
  | .in_ => []
  | .out => []
  | .add => []
  | .sub => []
  | .mul => []
  | .div => []
  | .sqrt => []
  | .pop => []
  | .ret => []
  | .less => []
  | .greater => []
  | .or => []
  | .and => []
  | .not => []
  | .rsvd22 => []

/-- The bytes of an instruction (R70). Of the unnamed tag only the opcode byte is known (R80). -/
def encode (p : Params) (i : Instr) : List Byte := p.opcodeByte i.tag :: i.operandBytes p.endian

/-- The reference assignment of opcode bytes: dense from 0x00 in the listing order (R72, the spec's decision D2).
DESIGN CHOICE, unsafe: log entry 1. -/
def referenceOpcodes : List Byte :=
  [0x00, 0x01, 0x02, 0x03, 0x04, 0x05, 0x06, 0x07, 0x08, 0x09, 0x0A, 0x0B, 0x0C, 0x0D, 0x0E, 0x0F, 0x10, 0x11, 0x12,
    0x13, 0x14, 0x15]

/-- A header for State.reset: the spec gives no header's bytes (R79, D3). DESIGN CHOICE, unsafe: log entry 2. -/
def referenceHeader : List Byte := [0, 0, 0, 0, 0, 0, 0, 0]

/-- The parameters State.reset carries: the reference values of R8 where it gives one, else a value named in the log.
DESIGN CHOICE, unsafe: log entries 1 to 5 and 7. -/
def referenceParams : Params where
  opcodes := referenceOpcodes
  acceptedHeaders := [referenceHeader]
  currentHeader := referenceHeader
  endian := .little
  opstackCap := 1048576
  callstackCap := 1048576
  resetNan := 0x7FF8000000000000
  headerPolicy := .fault
  jifUntakenCheck := false
  notMode := .negate

/-- The nine bytes a table word stands for: byte `k` is bits `8k+7..8k`, and every bit at `nbits` or above is 0. -/
def tableBytes (nbits w : Nat) : List Byte :=
  (List.range maxLength).map fun k => BitVec.ofNat 8 ((w % 2 ^ nbits) >>> (8 * k))

/-- The instruction the decoder reads from a word of spec/opcode_table.json, under the reference parameters. -/
def decodeTableWord (nbits w : Nat) : Option Instr :=
  match decode referenceParams (tableBytes nbits w) with
  | .ok (i, _) => some i
  | .error _ => none

end Sys2Proof
end

