-- ==== Sys2Proof/Machine/State.lean ====
section
/-! DEFINITION. The machine's state as plain data (10_state.md), the reasons a step can stop, and the state before the
first start of a run. -/

namespace Sys2Proof.Machine

/-- The nine error kinds of R260. -/
inductive ErrorKind where
  | headerMismatch
  | outOfMemory
  | popFromEmptyStack
  | notEnoughArgs
  | unknownRegister
  | unknownCommand
  | noHalt
  | badJumpAddress
  | retWithoutCall
  deriving DecidableEq, Repr

/-- The STATUS register (R28): its field STATE, with the field KIND where STATE is ERROR. KIND is 0 in every other state,
and the reserved bits are 0, so nothing else is stored; `State.statusWord` gives the 64 bits the host reads. -/
inductive Status where
  /-- No run has started (R29). -/
  | idle
  /-- The loop is executing. -/
  | running
  /-- HALT was executed (R130). -/
  | halted
  /-- A run ended with an error kind (R262). -/
  | error (kind : ErrorKind)
  /-- The run met the unnamed opcode (R80): a verdict of the model. -/
  | refused
  deriving DecidableEq, Repr

/-- The register file (R22), under the names of R23: rax, rbx, rcx and rdx are R[0], R[1], R[2] and R[3]. -/
structure Regs where
  rax : Word
  rbx : Word
  rcx : Word
  rdx : Word
  deriving DecidableEq, Repr

/-- The bytes of a buffer that are not zero, by address. -/
abbrev Memory := List Host.Cell

/-- What an unlisted address of the buffer reads as. The host gives every byte of the buffer (R50), so this is how zero
bytes are written down, not a value the hardware might differ on. DESIGN CHOICE, safe: log entry 16. -/
def Memory.unlisted : Byte := 0

/-- The canonical form: addresses strictly rising, and no cell that holds what an unlisted address reads as. -/
abbrev Memory.wf (m : Memory) : Prop :=
  m.Pairwise (fun x y => x.1 < y.1) ∧ ∀ c ∈ m, c.2 ≠ Memory.unlisted

/-- A program buffer: PLEN and P (R50). -/
structure Image where
  /-- PLEN; every 64-bit value is allowed (R50: `0 <= PLEN < 2^64`). -/
  len : Word
  /-- The bytes of P that are not zero. -/
  cells : Memory
  deriving DecidableEq, Repr

/-- A buffer in canonical form lists only addresses it has (R57). -/
abbrev Image.wf (img : Image) : Prop := Memory.wf img.cells ∧ ∀ c ∈ img.cells, c.1 < img.len.toNat

/-- The buffer before any is presented. -/
def Image.empty : Image where
  len := 0
  cells := []

/-- The state vector of R20, with the parameters of R8, the program buffer and the ports, all as plain data. -/
structure State where
  /-- The parameters (R8); nothing changes them (R302). -/
  params : Params
  /-- The program buffer of the current run (R50, R65). -/
  prog : Image
  /-- The instruction pointer (R26). -/
  ip : Word
  /-- The register file (R22). -/
  regs : Regs
  /-- The operand stack OS (R30), its top first. -/
  os : List Word
  /-- The call stack CS (R31), its top first. -/
  cs : List Word
  /-- STATUS (R28). -/
  status : Status
  /-- The input port: values the host has presented and the core has not taken, oldest first (R131). -/
  input : List Word
  /-- How many input values this run has taken (R305). -/
  taken : Nat
  /-- The output port: the values this run has sent, oldest first (R134, R305). -/
  output : List Word
  /-- The buffers the host will start, oldest first, each when STATUS is not RUNNING (R301, R302). -/
  pendingStarts : List Image
  /-- The model's own: how many free values have been drawn (log entry 9). -/
  draws : Nat
  deriving DecidableEq, Repr

/-- The reasons for a Host fault: none. Every error of the spec is a next state with STATUS = ERROR (R262), so no
instruction and no step stops by a fault. -/
inductive Fault
  deriving DecidableEq, Repr

/-- The reasons for a Host refusal. -/
inductive Refusal where
  /-- Raised by `exec` for an instruction that has no meaning yet; no arm answers so. Safe. -/
  | notModelled (mnemonic : String)
  /-- Raised by `step` when STATUS is REFUSED and the host asserts no start: the spec does not know what the hardware does
  after the unnamed opcode, so the model gives no next state (R80). Safe. -/
  | unnamedOpcode
  deriving DecidableEq, Repr

/-- STATUS is IDLE (R29). The spec leaves the rest unspecified before the first start (R35); the values here are the
start-of-run values, with no buffer presented. DESIGN CHOICE, unsafe: log entry 12. -/
def State.reset : State where
  params := referenceParams
  prog := Image.empty
  ip := 8
  regs :=
    { rax := referenceParams.resetNan, rbx := referenceParams.resetNan, rcx := referenceParams.resetNan,
      rdx := referenceParams.resetNan }
  os := []
  cs := []
  status := .idle
  input := []
  taken := 0
  output := []
  pendingStarts := []
  draws := 0

end Sys2Proof.Machine
end

