-- ==== Sys2Proof/Machine/Ops.lean ====
section
/-! DEFINITION. The named operations over the state: the program buffer, fetching, the ports, the stacks (40_loop.md R104 to
R107), raising an error (60_exceptions.md R262), refusing (30_encoding.md R80) and starting a run
(70_reset_and_hazards.md R301). An operation that can raise takes what follows it as its last argument. -/

namespace Sys2Proof.Machine

/-- What a meaning answers. -/
abbrev Result := Host.Outcome State Fault Refusal

/-! ### Memory and program buffer (20_memory.md) -/

/-- The byte at an address. -/
def Memory.read : Memory → Nat → Byte
  | [], _ => Memory.unlisted
  | (b, v) :: rest, a => if a = b then v else Memory.read rest a

/-- Write one byte, keeping the canonical form. No instruction does (R50); a buffer is laid out with it. -/
def Memory.write : Memory → Nat → Byte → Memory
  | [], a, v => if v = Memory.unlisted then [] else [(a, v)]
  | (b, w) :: rest, a, v =>
    if a < b then (if v = Memory.unlisted then (b, w) :: rest else (a, v) :: (b, w) :: rest)
    else if a = b then (if v = Memory.unlisted then rest else (b, v) :: rest)
    else (b, w) :: Memory.write rest a v

/-- Write bytes at rising addresses. -/
def Memory.writeBytes (m : Memory) (a : Nat) : List Byte → Memory
  | [] => m
  | b :: bs => Memory.writeBytes (Memory.write m a b) (a + 1) bs

/-- `P[a]`, for an offset the buffer has (R12, R65). -/
def Image.byteAt (img : Image) (a : Nat) : Byte := Memory.read img.cells a

/-- The bytes from an offset on, at most `n` of them and none at or past PLEN (R12, R65). -/
def Image.bytesFrom (img : Image) (a n : Nat) : List Byte :=
  (List.range (min n (img.len.toNat - a))).map fun k => img.byteAt (a + k)

/-- A buffer with the given bytes: PLEN is their number (R50). -/
def Image.ofBytes (bytes : List Byte) : Image where
  len := BitVec.ofNat 64 bytes.length
  cells := Memory.writeBytes [] 0 bytes

/-- HEADER_LEN (R7). -/
def headerLen : Nat := 8

/-- The header check of R301: a buffer shorter than a header has none, and its first 8 bytes are one of
ACCEPTED_HEADERS as one string (R79). -/
def Image.headerAccepted (p : Params) (img : Image) : Bool :=
  decide (headerLen ≤ img.len.toNat) && p.acceptedHeaders.contains (img.bytesFrom 0 headerLen)

/-! ### Fetch (40_loop.md R101, R108) -/

/-- The bytes from `ip` on that one instruction can take. -/
def State.fetchBytes (s : State) : List Byte := s.prog.bytesFrom s.ip.toNat maxLength

/-- Fetch and decode at `ip`, with the bound checks of R101 and R102. -/
def State.fetch (s : State) : Except DecodeError Instr :=
  match decode s.params s.fetchBytes with
  | .ok (i, _) => .ok i
  | .error e => .error e

/-! ### STATUS (10_state.md R28) -/

/-- The KIND code of an error kind (R260). -/
def ErrorKind.code : ErrorKind → Nat
  | .headerMismatch => 1
  | .outOfMemory => 2
  | .popFromEmptyStack => 3
  | .notEnoughArgs => 4
  | .unknownRegister => 5
  | .unknownCommand => 6
  | .noHalt => 7
  | .badJumpAddress => 8
  | .retWithoutCall => 9

/-- The STATE code (R28). -/
def Status.stateCode : Status → Nat
  | .idle => 0
  | .running => 1
  | .halted => 2
  | .error _ => 3
  | .refused => 4

/-- The KIND code: 0 unless STATE is ERROR (R28). -/
def Status.kindCode : Status → Nat
  | .idle => 0
  | .running => 0
  | .halted => 0
  | .error k => k.code
  | .refused => 0

/-- The 64 bits of STATUS: STATE in [3:0], KIND in [7:4], zero above (R28). -/
def Status.word (st : Status) : Word := BitVec.ofNat 64 (st.stateCode + 16 * st.kindCode)

/-- STATUS as the host reads it (R28). -/
def State.statusWord (s : State) : Word := s.status.word

/-! ### Ending a run (60_exceptions.md) -/

/-- After an error `ip`, the registers and the stacks are unspecified (R262): each becomes a free value, the stacks within
their bounds (R30, R31). DESIGN CHOICE, safe: log entry 9. -/
def State.unspecified (s : State) : State :=
  { s with
    ip := Config.freeWord s.draws
    regs :=
      { rax := Config.freeWord (s.draws + 1), rbx := Config.freeWord (s.draws + 2),
        rcx := Config.freeWord (s.draws + 3), rdx := Config.freeWord (s.draws + 4) }
    os := (Config.freeStack s.draws).take s.params.opstackCap
    cs := (Config.freeStack (s.draws + 1)).take s.params.callstackCap
    draws := s.draws + 5 }

/-- The state `raise Error(k)` leaves: STATUS is (ERROR, k) and the run is over (R262). There is no saved state, no handler
and no return (R264). -/
def State.raised (k : ErrorKind) (s : State) : State := { s.unspecified with status := .error k }

/-- `raise Error(k)` (R13, R262): every error of the spec is taken here. -/
def raise (k : ErrorKind) (s : State) : Result := .next (State.raised k s)

/-- The state `refuse(UnnamedOpcode)` leaves: STATUS is (REFUSED, 0) (R80, R261). What the hardware did to the rest is not
known, so it is free as after an error. DESIGN CHOICE, safe: log entry 11. -/
def State.refuse (s : State) : State := { s.unspecified with status := .refused }

/-- `halt` (R13, R130). -/
def State.halt (s : State) : State := { s with status := .halted }

/-- The error kind of bytes that do not decode (R101, R102, R103, R77). -/
def decodeErrorKind : DecodeError → ErrorKind
  | .endOfBuffer => .noHalt
  | .unknownOpcode => .unknownCommand
  | .truncated => .noHalt
  | .unknownRegister => .unknownRegister

/-! ### The instruction pointer (10_state.md R26) -/

/-- `ip <- v`. -/
def State.setIp (v : Word) (s : State) : State := { s with ip := v }

/-- `next`: the offset after an instruction of a format (R108). -/
def State.nextIp (f : Format) (s : State) : Word := s.ip + BitVec.ofNat 64 f.length

/-- `ip <- next` (R26). -/
def State.advance (f : Format) (s : State) : State := s.setIp (s.nextIp f)

/-! ### The operand stack (40_loop.md R104, R105) -/

/-- `OS <- stack`. -/
def State.setOs (stack : List Word) (s : State) : State := { s with os := stack }

/-- `push_os(v)` (R104). -/
def pushOs (v : Word) (s : State) (next : State → Result) : Result :=
  if s.os.length = s.params.opstackCap then raise .outOfMemory s else next (s.setOs (v :: s.os))

/-- `pop_os()` (R105). -/
def popOs (s : State) (next : Word → State → Result) : Result :=
  match s.os with
  | [] => raise .popFromEmptyStack s
  | v :: rest => next v (s.setOs rest)

/-- A one-operand operation of format F0 (R153): the top is replaced by the result. The push finds the depth lower than
before, so it is not tested against OPSTACK_CAP (R104, R153). -/
def unaryOp (f : Word → Word) (s : State) : Result :=
  match s.os with
  | x :: rest => .next ((s.setOs (f x :: rest)).advance .F0)
  | [] => raise .notEnoughArgs s

/-- A two-operand operation of format F0 (R152, R153): the top is the right-hand operand. The push is not tested against
OPSTACK_CAP (R104, R153). -/
def binaryOp (f : Word → Word → Word) (s : State) : Result :=
  match s.os with
  | b :: a :: rest => .next ((s.setOs (f a b :: rest)).advance .F0)
  | [_] => raise .notEnoughArgs s
  | [] => raise .notEnoughArgs s

/-! ### The call stack (40_loop.md R106, R107) -/

/-- `CS <- stack`. -/
def State.setCs (stack : List Word) (s : State) : State := { s with cs := stack }

/-- `push_cs(r)` (R106). -/
def pushCs (r : Word) (s : State) (next : State → Result) : Result :=
  if s.cs.length = s.params.callstackCap then raise .outOfMemory s else next (s.setCs (r :: s.cs))

/-- `pop_cs()` (R107). -/
def popCs (s : State) (next : Word → State → Result) : Result :=
  match s.cs with
  | [] => raise .retWithoutCall s
  | r :: rest => next r (s.setCs rest)

/-! ### The ports (41_control_io.md R131, R134) -/

/-- `take_in()` (R131): the oldest presented value, or a wait with no state change while there is none. -/
def takeIn (s : State) (next : Word → State → Result) : Result :=
  match s.input with
  | [] => .next s
  | v :: rest => next v { s with input := rest, taken := s.taken + 1 }

/-- `emit_out(v)` (R134): the value is sent after all earlier ones. -/
def State.emitOut (v : Word) (s : State) : State := { s with output := s.output ++ [v] }

/-! ### Starting a run (70_reset_and_hazards.md R301) -/

/-- The start transition on a buffer: the header check, then the start-of-run values of R35. What a run shows is counted from
its start (R305; log entry 15). -/
def State.start (img : Image) (s : State) : State :=
  let fresh : State := { s with prog := img, taken := 0, output := [] }
  if img.headerAccepted s.params then
    { fresh with
      ip := BitVec.ofNat 64 headerLen
      regs :=
        { rax := s.params.resetNan, rbx := s.params.resetNan, rcx := s.params.resetNan, rdx := s.params.resetNan }
      os := []
      cs := []
      status := .running }
  else State.raised .headerMismatch fresh

/-- The host presents a buffer and asserts `start` when the core is not running (R301, R302). -/
def State.requestStart (img : Image) (s : State) : State := { s with pendingStarts := s.pendingStarts ++ [img] }

/-- The host presents one value at the input port (R131). -/
def State.supplyInput (v : Word) (s : State) : State := { s with input := s.input ++ [v] }

/-- What a machine that is not running does: it starts the oldest buffer the host asks for (R301); with none, a terminal
state stays as it is (R100, D29), and REFUSED gives no next state (R80). -/
def State.stopped (s : State) : Result :=
  match s.pendingStarts with
  | img :: rest => .next (State.start img { s with pendingStarts := rest })
  | [] => if s.status = .refused then .refused .unnamedOpcode else .next s

end Sys2Proof.Machine
end

