-- ==== Sys2Proof/Machine/Arithmetic.lean ====
section
/-! DEFINITION. ADD, SUB, MUL, DIV and SQRT (42_arithmetic.md). -/

namespace Sys2Proof.Machine

/-- ADD (R155). -/
def execAdd (s : State) : Result := binaryOp F64.fadd s

/-- SUB (R156). -/
def execSub (s : State) : Result := binaryOp F64.fsub s

/-- MUL (R157). -/
def execMul (s : State) : Result := binaryOp F64.fmul s

/-- DIV (R158). -/
def execDiv (s : State) : Result := binaryOp F64.fdiv s

/-- SQRT (R159). -/
def execSqrt (s : State) : Result := unaryOp F64.fsqrt s

end Sys2Proof.Machine
end

