-- ==== Sys2Proof/Machine/Flags.lean ====
section
/-! DEFINITION. The core has no flag register and no condition codes (10_state.md R27): truth is a value on the operand
stack. This file holds the comparisons and the truth values that stand in their place (45_relational.md R230, R231). -/

namespace Sys2Proof.Machine

/-- TRUE, the pattern of 1.0 (R231, R14). -/
def trueWord : Word := 0x3FF0000000000000

/-- FALSE, the pattern of -1.0 (R231, R14). -/
def falseWord : Word := 0xBFF0000000000000

/-- A boolean result as a value (R231). -/
def boolWord (b : Bool) : Word := if b then trueWord else falseWord

/-- `flt`: ordered less-than; false when an operand is NaN, and the two zeros are equal (R230). -/
def flt (a b : Word) : Bool := !F64.isNaN a && !F64.isNaN b && decide (F64.value a < F64.value b)

/-- `fgt`: ordered greater-than (R230). -/
def fgt (a b : Word) : Bool := !F64.isNaN a && !F64.isNaN b && decide (F64.value b < F64.value a)

/-- `pos`: strictly greater than `+0.0` (R14, R231). -/
def pos (x : Word) : Bool := fgt x F64.posZero

/-- The value LESS pushes (R232). -/
def lessWord (a b : Word) : Word := boolWord (flt a b)

/-- The value GREATER pushes (R233). -/
def greaterWord (a b : Word) : Word := boolWord (fgt a b)

/-- The value OR pushes (R234). -/
def orWord (a b : Word) : Word := boolWord (pos a || pos b)

/-- The value AND pushes (R235). -/
def andWord (a b : Word) : Word := boolWord (pos a && pos b)

/-- The value NOT pushes under each NOT_MODE (R236). -/
def notWord (mode : NotMode) (x : Word) : Word :=
  match mode with
  | .negate => F64.negate x
  | .boolean => boolWord (!pos x)

end Sys2Proof.Machine
end

