-- ==== Sys2Proof/Machine/Operands.lean ====
section
/-! DEFINITION. The operand forms (30_encoding.md R74, R76): a register byte and a displacement. A literal is its own
pattern (R75), and format F0 has no operand (R70). -/

namespace Sys2Proof.Machine

/-- The four registers under their assembler names (R23). -/
inductive RegName where
  | rax | rbx | rcx | rdx
  deriving DecidableEq, Repr

/-- The register a register byte selects; 4 to 255 select none (R74). The order of the names is the spec's decision D25
(log entry 31). -/
def regName (reg : Byte) : Option RegName :=
  match reg.toNat with
  | 0 => some .rax
  | 1 => some .rbx
  | 2 => some .rcx
  | 3 => some .rdx
  | _ => none

/-- `R[i]` (R11, R22). -/
def Regs.get (r : Regs) : RegName → Word
  | .rax => r.rax
  | .rbx => r.rbx
  | .rcx => r.rcx
  | .rdx => r.rdx

/-- `R[i] <- v` (R11, R22). -/
def Regs.set (r : Regs) (i : RegName) (v : Word) : Regs :=
  match i with
  | .rax => { r with rax := v }
  | .rbx => { r with rbx := v }
  | .rcx => { r with rcx := v }
  | .rdx => { r with rdx := v }

/-- `R[i] <- v` in the state; no other register changes (R183). -/
def State.setReg (i : RegName) (v : Word) (s : State) : State := { s with regs := s.regs.set i v }

/-- The register check of R103, before anything is touched. -/
def withReg (reg : Byte) (s : State) (next : RegName → Result) : Result :=
  match regName reg with
  | some i => next i
  | none => raise .unknownRegister s

/-- The target of a displacement: field end plus displacement, modulo 2^64 (R76, R200). -/
def State.target (disp : Word) (s : State) : Word := s.nextIp .FD + disp

/-- `check_target` (R201), on the unsigned target. -/
def State.targetOk (s : State) (t : Word) : Bool :=
  decide (t.toNat < s.prog.len.toNat) && (decide (headerLen ≤ t.toNat) || s.params.headerPolicy == .execute)

/-- `check_target(t)`, then what follows it (R201). -/
def checkTarget (t : Word) (s : State) (next : Result) : Result :=
  if s.targetOk t then next else raise .badJumpAddress s

/-- `check_target(t)`, then `ip <- t` (R200, R201). -/
def jumpTo (t : Word) (s : State) : Result := checkTarget t s (.next (s.setIp t))

end Sys2Proof.Machine
end

