-- ==== Sys2Proof/Machine/ControlFlow.lean ====
section
/-! DEFINITION. JMP, JIF, CALL and RET (44_control_flow.md). -/

namespace Sys2Proof.Machine

/-- JMP (R203). -/
def execJmp (disp : Word) (s : State) : Result := jumpTo (s.target disp) s

/-- JIF (R204): the value is consumed whether or not the jump is taken. -/
def execJif (disp : Word) (s : State) : Result :=
  popOs s fun v s =>
    if pos v then jumpTo (s.target disp) s
    else if s.params.jifUntakenCheck then checkTarget (s.target disp) s (.next (s.advance .FD))
    else .next (s.advance .FD)

/-- CALL (R205): the push of the return address before the target check. -/
def execCall (disp : Word) (s : State) : Result := pushCs (s.nextIp .FD) s fun s => jumpTo (s.target disp) s

/-- RET (R206): the return address is not checked (D28; log entry 24). -/
def execRet (s : State) : Result := popCs s fun r s => .next (s.setIp r)

end Sys2Proof.Machine
end

