-- ==== Sys2Proof/Machine/ControlIo.lean ====
section
/-! DEFINITION. HALT, IN and OUT (41_control_io.md). -/

namespace Sys2Proof.Machine

/-- HALT (R130): STATUS is (HALTED, 0); `ip`, registers and stacks are left as they are (log entry 10). -/
def execHalt (s : State) : Result := .next s.halt

/-- IN (R131 to R133): the value is taken before the capacity is checked (R132, D8; log entry 18). -/
def execIn (s : State) : Result := takeIn s fun v s => pushOs v s fun s => .next (s.advance .F0)

/-- OUT (R135). -/
def execOut (s : State) : Result := popOs s fun v s => .next ((s.emitOut v).advance .F0)

end Sys2Proof.Machine
end

