-- ==== Sys2Proof/Machine/Relational.lean ====
section
/-! DEFINITION. LESS, GREATER, OR, AND and NOT (45_relational.md). -/

namespace Sys2Proof.Machine

/-- LESS (R232). -/
def execLess (s : State) : Result := binaryOp lessWord s

/-- GREATER (R233). -/
def execGreater (s : State) : Result := binaryOp greaterWord s

/-- OR (R234). -/
def execOr (s : State) : Result := binaryOp orWord s

/-- AND (R235). -/
def execAnd (s : State) : Result := binaryOp andWord s

/-- NOT (R236). -/
def execNot (s : State) : Result := unaryOp (notWord s.params.notMode) s

end Sys2Proof.Machine
end

