-- ==== Sys2Proof/Machine/Reserved.lean ====
section
/-! DEFINITION. RSVD22, the unnamed 22nd member of the opcode set (30_encoding.md R80). -/

namespace Sys2Proof.Machine

/-- RSVD22 (R80, R261): STATUS becomes (REFUSED, 0), and nothing else is known of the state (log entry 11). -/
def execRsvd22 (s : State) : Result := .next s.refuse

end Sys2Proof.Machine
end

