-- ==== Sys2Proof/Machine/Stack.lean ====
section
/-! DEFINITION. POP, POP_REG, PUSH_VAL and PUSH_REG (43_stack.md). Every move copies the 64-bit pattern (R182). -/

namespace Sys2Proof.Machine

/-- POP (R181). -/
def execPop (s : State) : Result := popOs s fun _ s => .next (s.advance .F0)

/-- POP_REG (R183): the register check before the stack check. -/
def execPopReg (reg : Byte) (s : State) : Result :=
  withReg reg s fun i => popOs s fun v s => .next ((s.setReg i v).advance .FR)

/-- PUSH_VAL (R184). -/
def execPushVal (imm : Word) (s : State) : Result := pushOs imm s fun s => .next (s.advance .FL)

/-- PUSH_REG (R185): the register check before the capacity check. -/
def execPushReg (reg : Byte) (s : State) : Result :=
  withReg reg s fun i => pushOs (s.regs.get i) s fun s => .next (s.advance .FR)

end Sys2Proof.Machine
end

