-- ==== Sys2Proof/Machine/Dispatch.lean ====
section
/-! DEFINITION. `execute t` (40_loop.md R110): exactly one meaning for each instruction. -/

namespace Sys2Proof.Machine

/-- The dispatch of R110. -/
def exec (i : Instr) (s : State) : Host.Outcome State Fault Refusal :=
  match i with
  | .halt => Sys2Proof.Machine.execHalt s
  | .in_ => Sys2Proof.Machine.execIn s
  | .out => Sys2Proof.Machine.execOut s
  | .add => Sys2Proof.Machine.execAdd s
  | .sub => Sys2Proof.Machine.execSub s
  | .mul => Sys2Proof.Machine.execMul s
  | .div => Sys2Proof.Machine.execDiv s
  | .sqrt => Sys2Proof.Machine.execSqrt s
  | .pop => Sys2Proof.Machine.execPop s
  | .popReg reg => Sys2Proof.Machine.execPopReg reg s
  | .pushVal imm => Sys2Proof.Machine.execPushVal imm s
  | .pushReg reg => Sys2Proof.Machine.execPushReg reg s
  | .jmp disp => Sys2Proof.Machine.execJmp disp s
  | .jif disp => Sys2Proof.Machine.execJif disp s
  | .call disp => Sys2Proof.Machine.execCall disp s
  | .ret => Sys2Proof.Machine.execRet s
  | .less => Sys2Proof.Machine.execLess s
  | .greater => Sys2Proof.Machine.execGreater s
  | .or => Sys2Proof.Machine.execOr s
  | .and => Sys2Proof.Machine.execAnd s
  | .not => Sys2Proof.Machine.execNot s
  | .rsvd22 => Sys2Proof.Machine.execRsvd22 s

end Sys2Proof.Machine
end

