-- ==== Sys2Proof/Machine/Step.lean ====
section
/-! DEFINITION. One step of the machine (40_loop.md R100, R108). -/

namespace Sys2Proof.Machine

/-- One transition of R100. RUNNING: fetch, decode and execute one instruction, or raise the error the fetch meets (R108).
Any other state: a start the host asks for, or no step. -/
def step (s : State) : Host.Outcome State Fault Refusal :=
  match s.status with
  | .running =>
    match s.fetch with
    | .ok i => exec i s
    | .error e => raise (decodeErrorKind e) s
  | .idle => s.stopped
  | .halted => s.stopped
  | .error _ => s.stopped
  | .refused => s.stopped

/-- `s` running, with an instruction of spec/opcode_table.json at its `ip`: the nine bytes of the table word, and a buffer
long enough for them. It stands for the host's load and start of a program (log entry 13). -/
def State.withFetchWord (s : State) (nbits w : Nat) : State :=
  { s with
    status := .running
    prog :=
      { len := if s.prog.len.toNat < s.ip.toNat + maxLength then s.ip + BitVec.ofNat 64 maxLength else s.prog.len
        cells := Memory.writeBytes s.prog.cells s.ip.toNat (tableBytes nbits w) } }

end Sys2Proof.Machine
end

