-- ==== Sys2Proof/Safety.lean ====
section
/-! DEFINITION. The terms statements about the machine use: which parameters the spec allows, what a step that raises an error
shows, the invariant of a run, when two states show the same run, and what correct rounding is. -/

namespace Sys2Proof

/-- OPCODE_BYTE is injective (R72). -/
abbrev Params.OpcodesInjective (p : Params) : Prop :=
  ∀ t ∈ Tag.all, ∀ u ∈ Tag.all, p.opcodeByte t = p.opcodeByte u → t = u

/-- The image of OPCODE_BYTE is 22 consecutive byte values (R72). -/
abbrev Params.OpcodesDense (p : Params) : Prop :=
  ∃ base ∈ List.range 235, ∀ t ∈ Tag.all,
    base ≤ (p.opcodeByte t).toNat ∧ (p.opcodeByte t).toNat < base + 22

/-- The constraints R8, R25, R72 and R79 put on the parameters. -/
abbrev Params.Allowed (p : Params) : Prop :=
  p.OpcodesInjective ∧ p.OpcodesDense ∧ p.opcodes.length = 22 ∧ (∀ h ∈ p.acceptedHeaders, h.length = 8) ∧
    p.currentHeader ∈ p.acceptedHeaders ∧ Machine.F64.isNaN p.resetNan = true

namespace Machine

/-- What a step that raises Error(k) shows: STATUS is (ERROR, k), and outputs, inputs, buffer, parameters and the host's
requests are as they were. Of `ip`, the registers and the stacks nothing is said (R262). -/
def ErrsWith (k : ErrorKind) (s : State) (r : Result) : Prop :=
  ∃ t, r = .next t ∧ t.status = .error k ∧ t.output = s.output ∧ t.input = s.input ∧ t.taken = s.taken ∧
    t.prog = s.prog ∧ t.params = s.params ∧ t.pendingStarts = s.pendingStarts

/-- A step that raises no error and meets no unnamed opcode leaves the run going or halted (R100). -/
abbrev State.Completed (t : State) : Prop := t.status = .running ∨ t.status = .halted

/-- A target passes the check of R201: below PLEN, and not in the header unless header bytes may be executed. -/
abbrev State.InBounds (s : State) (t : Word) : Prop :=
  t.toNat < s.prog.len.toNat ∧ (8 ≤ t.toNat ∨ s.params.headerPolicy = .execute)

/-- The invariant of the machine: buffers are in canonical form, the stacks keep their bounds (R30, R31), and while a run is
RUNNING its header is accepted (R301), `ip` is at most PLEN (R26), `ip` is past the header unless header bytes may be
executed (R201), and every return address lies between 9 and PLEN (R206). -/
structure State.Inv (s : State) : Prop where
  progWf : s.prog.wf
  pendingWf : ∀ img ∈ s.pendingStarts, img.wf
  osBound : s.os.length ≤ s.params.opstackCap
  csBound : s.cs.length ≤ s.params.callstackCap
  header : s.status = .running → s.prog.headerAccepted s.params = true
  ipInBuffer : s.status = .running → s.ip.toNat ≤ s.prog.len.toNat
  ipPastHeader : s.status = .running → s.params.headerPolicy = .fault → headerLen ≤ s.ip.toNat
  returnAddrs : s.status = .running → ∀ r ∈ s.cs, headerLen < r.toNat ∧ r.toNat ≤ s.prog.len.toNat

/-- Two states show the same run: everything but the unspecified values of a run that is over, and the count of free values,
agrees (R262, R300, R305). -/
structure State.SameRun (s t : State) : Prop where
  params : s.params = t.params
  prog : s.prog = t.prog
  status : s.status = t.status
  input : s.input = t.input
  taken : s.taken = t.taken
  output : s.output = t.output
  pendingStarts : s.pendingStarts = t.pendingStarts
  running : s.status = .running → s.ip = t.ip ∧ s.regs = t.regs ∧ s.os = t.os ∧ s.cs = t.cs

/-- Two outcomes show the same run. -/
def SameRunOutcome : Result → Result → Prop
  | .next s, .next t => State.SameRun s t
  | .refused a, .refused b => a = b
  | .fault a, .fault b => a = b
  | _, _ => False

/-- An outcome with a function applied to its next state. -/
def mapNext (f : State → State) : Result → Result
  | .next s => .next (f s)
  | .fault r => .fault r
  | .refused r => .refused r

/-- The instruction awaits the input port: the core asserts a request (R131). -/
def State.awaitsInput (s : State) : Bool :=
  decide (s.status = .running) && (match s.fetch with | .ok i => decide (i = .in_) | .error _ => false) &&
    s.input.isEmpty

namespace F64

/-- The number a finite pattern stands for, exactly (R10). -/
def toRat (w : Word) : ℚ := (value w : ℚ) / 2 ^ 1074

/-- `r` is `x` rounded once to binary64, to nearest with ties to even (R150): infinite exactly from half a step past the
largest finite number on, otherwise no finite pattern is nearer, one that is as near and differs leaves `r` with an even
significand, and the sign of a non-zero `x` is kept. -/
def RoundsTo (x : ℝ) (r : Word) : Prop :=
  isNaN r = false ∧
  (isInf r = true ↔ (2 : ℝ) ^ 1024 - 2 ^ 970 ≤ |x|) ∧
  (isFinite r = true → ∀ c, isFinite c = true →
    |(toRat r : ℝ) - x| ≤ |(toRat c : ℝ) - x| ∧
    (|(toRat r : ℝ) - x| = |(toRat c : ℝ) - x| → toRat c = toRat r ∨ r.toNat % 2 = 0)) ∧
  (x < 0 → sign r = true) ∧ (0 < x → sign r = false)

end F64

end Machine

end Sys2Proof
end

