-- ==== Sys2Proof/Certificates/Slice0/Obligations.lean ====
section
/-! DEFINITION. The statements for the provers. A statement named 'derived' in OBLIGATIONS.json rests on a decision of the
spec (92_eei_decisions.md), on general knowledge the spec marks as such, or on a choice of the model's log; its docstring says
which. -/

open Sys2Proof Sys2Proof.Machine

/-! ### Encoding -/

/-- Decoding an encoded well-formed instruction gives it back, with the bytes after it, for every injective OPCODE_BYTE and
both byte orders (R70, R72 to R76). -/
def Obligations.DecodeEncodeRoundTrip : Prop :=
  ∀ (p : Params) (i : Instr) (rest : List Byte), p.OpcodesInjective → i.wellFormed = true →
    decode p (encode p i ++ rest) = .ok (i, rest)

/-- Bytes that decode are the encoding of the well-formed instruction they decode to, and the bytes after it: no bit is
ignored (R70, R72 to R76, R78). -/
def Obligations.DecodeAcceptsOnlyEncodings : Prop :=
  ∀ (p : Params) (bytes rest : List Byte) (i : Instr), decode p bytes = .ok (i, rest) →
    i.wellFormed = true ∧ bytes = encode p i ++ rest

/-- Byte strings of 95_test_vectors.md under the reference parameters (the spec's decisions D2 and D4): `push 3`, `add`,
`pop rax`, `jmp loop` of Scenario B, the unnamed opcode, and the rejections DC1, DC6 and S5. -/
def Obligations.ReferenceWordsDecode : Prop :=
  decode referenceParams [0x0A, 0x00, 0x00, 0x00, 0x00, 0x00, 0x00, 0x08, 0x40] =
      .ok (.pushVal 0x4008000000000000, []) ∧
    decode referenceParams [0x03] = .ok (.add, []) ∧
    decode referenceParams [0x09, 0x00] = .ok (.popReg 0, []) ∧
    decode referenceParams [0x0C, 0xEC, 0xFF, 0xFF, 0xFF, 0xFF, 0xFF, 0xFF, 0xFF] =
      .ok (.jmp 0xFFFFFFFFFFFFFFEC, []) ∧
    decode referenceParams [0x15] = .ok (.rsvd22, []) ∧
    decode referenceParams [0x16] = .error .unknownOpcode ∧
    decode referenceParams [0x09] = .error .truncated ∧
    decode referenceParams [0x09, 0x04] = .error .unknownRegister

/-! ### The step -/

/-- The checks of a step in their order (R108): fetch bound, opcode class, truncation, register range, and otherwise the one
instruction whose tag and operand bytes stand at `ip` is executed. The order and the truncation rule are the spec's
decisions D8 and D26. -/
def Obligations.StepChecksInOrder : Prop :=
  ∀ s : State, s.status = .running → s.params.OpcodesInjective →
    (s.prog.len.toNat ≤ s.ip.toNat → ErrsWith .noHalt s (step s)) ∧
    (s.ip.toNat < s.prog.len.toNat → (∀ t, s.params.opcodeByte t ≠ s.prog.byteAt s.ip.toNat) →
      ErrsWith .unknownCommand s (step s)) ∧
    (∀ t, s.ip.toNat < s.prog.len.toNat → s.params.opcodeByte t = s.prog.byteAt s.ip.toNat →
      s.prog.len.toNat - s.ip.toNat - 1 < t.format.operandLen → ErrsWith .noHalt s (step s)) ∧
    (∀ t, s.ip.toNat < s.prog.len.toNat → s.params.opcodeByte t = s.prog.byteAt s.ip.toNat →
      t.format = .FR → 1 ≤ s.prog.len.toNat - s.ip.toNat - 1 → 3 < (s.prog.byteAt (s.ip.toNat + 1)).toNat →
      ErrsWith .unknownRegister s (step s)) ∧
    (∀ i : Instr, s.ip.toNat < s.prog.len.toNat → s.params.opcodeByte i.tag = s.prog.byteAt s.ip.toNat →
      i.operandBytes s.params.endian = s.prog.bytesFrom (s.ip.toNat + 1) i.tag.format.operandLen →
      i.wellFormed = true → step s = exec i s)

/-- Running off the end of the buffer raises NoHalt and fetches nothing: there is no byte to decode (R101). -/
def Obligations.FetchPastEndRaisesNoHalt : Prop :=
  ∀ s : State, s.status = .running → s.prog.len.toNat ≤ s.ip.toNat →
    s.fetchBytes = [] ∧ ErrsWith .noHalt s (step s)

/-- A step runs the decoded instruction (R108), and the step adds nothing around `exec`. -/
def Obligations.StepRunsDecodedInstruction : Prop :=
  ∀ (s : State) (i : Instr) (rest : List Byte), s.status = .running →
    decode s.params (s.prog.bytesFrom s.ip.toNat 9) = .ok (i, rest) → i.wellFormed = true → step s = exec i s

/-- What a fetch finds depends on the bytes below PLEN alone: nothing at or past PLEN is read (R65, R102; ports are the spec's
decision D17). -/
def Obligations.FetchReadsOnlyTheBuffer : Prop :=
  ∀ (s : State) (img : Image), img.len = s.prog.len →
    (∀ a, a < s.prog.len.toNat → img.byteAt a = s.prog.byteAt a) → State.fetch { s with prog := img } = s.fetch

/-! ### Start, end and invariant -/

/-- STATUS is IDLE before any run, and an accepted start leaves the values of R35. STATUS and RESET_NAN are the spec's
decisions D18 and D12. -/
def Obligations.StartOfRunState : Prop :=
  State.reset.status = .idle ∧ State.reset.statusWord = 0 ∧
    ∀ (s : State) (img : Image), img.headerAccepted s.params = true →
      (State.start img s).ip = 8 ∧
      (∀ i, (State.start img s).regs.get i = s.params.resetNan) ∧
      (State.start img s).os = [] ∧ (State.start img s).cs = [] ∧
      (State.start img s).status = .running ∧ (State.start img s).statusWord = 1

/-- The start sequence of R301 as one step of a machine that is not running. ACCEPTED_HEADERS, the verdict on a buffer shorter
than a header and the ports are the spec's decisions D3, D30 and D17; the rest is the model's choice:
that a request waits in a queue is log entry 13, that inputs not yet taken stay for the new run is log entry 14, and that every
start, accepted or not, clears the outputs and the count of inputs taken is log entry 15. -/
def Obligations.StartSequence : Prop :=
  ∀ (s : State) (img : Image) (rest : List Image), s.status ≠ .running → s.pendingStarts = img :: rest →
    (img.len.toNat < 8 ∨ img.bytesFrom 0 8 ∉ s.params.acceptedHeaders →
      ∃ t, step s = .next t ∧ t.status = .error .headerMismatch ∧ t.prog = img ∧ t.params = s.params ∧
        t.input = s.input ∧ t.output = [] ∧ t.taken = 0 ∧ t.pendingStarts = rest) ∧
    (8 ≤ img.len.toNat → img.bytesFrom 0 8 ∈ s.params.acceptedHeaders →
      ∃ t, step s = .next t ∧ t.status = .running ∧ t.ip = 8 ∧ (∀ i, t.regs.get i = s.params.resetNan) ∧
        t.os = [] ∧ t.cs = [] ∧ t.prog = img ∧ t.params = s.params ∧ t.input = s.input ∧ t.output = [] ∧
        t.taken = 0 ∧ t.pendingStarts = rest)

/-- Nothing carries over from an earlier run (R300): two machines with the same parameters, inputs and requests, whatever ran on
them before, show the same run ever after. That outputs are counted from the start of a run is the model's choice, log
entry 15, and so is that a request waits in a queue, log entry 13, and that inputs not yet taken stay for the new run, log
entry 14. -/
def Obligations.NothingCarriesOverBetweenRuns : Prop :=
  ∀ (s t : State) (img : Image) (rest : List Image) (k : Nat), s.status ≠ .running → t.status ≠ .running →
    s.params = t.params → s.input = t.input → s.pendingStarts = img :: rest → t.pendingStarts = img :: rest →
    SameRunOutcome (Host.Core.run core (k + 1) s) (Host.Core.run core (k + 1) t)

/-- There is no trap entry, handler or return (R264): raising an error saves nothing and writes nothing but STATUS of what is
specified after it, and the only way out of ERROR is a new start from the host. The clauses rest on choices of the model: that
'no step' is a step to the same state is log entry 17, that the oldest waiting request is the one that starts is log entry 13, and
that ports and buffer stay while the rest becomes free is log entry 9. -/
def Obligations.ErrorLeavesOnlyByStart : Prop :=
  (∀ (s : State) (k : ErrorKind), ErrsWith k s (raise k s)) ∧
  ∀ (s : State) (k : ErrorKind), s.status = .error k →
    (s.pendingStarts = [] → ∀ n, Host.Core.run core n s = .next s) ∧
    (∀ img rest, s.pendingStarts = img :: rest →
      step s = .next (State.start img { s with pendingStarts := rest }))

/-- IDLE and HALTED stay as they are until a start (the spec's decision D29), and after REFUSED the model gives no next state
until a start (the spec's decision D20; log entries 11 and 17). -/
def Obligations.StoppedUntilStart : Prop :=
  ∀ s : State, s.pendingStarts = [] →
    (s.status = .idle ∨ s.status = .halted → ∀ n, Host.Core.run core n s = .next s) ∧
    (s.status = .refused → step s = .refused .unnamedOpcode)

/-- Every step keeps the invariant: buffers in canonical form, the stacks within their capacities (the spec's decision D11),
and while RUNNING an accepted header, `ip` at most PLEN and past the header unless it may be executed, and return
addresses between 9 and PLEN (R26, R30, R31, R206). -/
def Obligations.StepKeepsInvariant : Prop :=
  ∀ s t : State, s.Inv → step s = .next t → t.Inv

/-- The state before the first start meets the invariant. -/
def Obligations.ResetMeetsInvariant : Prop := State.reset.Inv

/-- What STATUS can become in a step of a run (R100): HALTED only by HALT, REFUSED only by RSVD22 (the spec's decision D20),
never IDLE, and never HeaderMismatch, which only a start raises. -/
def Obligations.StatusTransitions : Prop :=
  ∀ s t : State, s.status = .running → step s = .next t →
    t.status ≠ .idle ∧ t.status ≠ .error .headerMismatch ∧
    (t.status = .halted ↔ s.fetch = .ok .halt) ∧ (t.status = .refused ↔ s.fetch = .ok .rsvd22)

/-- A step has no side effect outside its own rule (R111): no memory is written, only POP_REG changes a register and only the
one it names, only OUT sends a value and only one, only IN takes a value and only one. -/
def Obligations.StepHasNoOtherSideEffect : Prop :=
  ∀ s t : State, s.status = .running → step s = .next t →
    t.prog = s.prog ∧
    (t.Completed → t.regs = s.regs ∨
      ∃ reg i v, s.fetch = .ok (.popReg reg) ∧ regName reg = some i ∧ t.regs = s.regs.set i v) ∧
    (t.output = s.output ∨ ∃ v, s.fetch = .ok .out ∧ t.output = s.output ++ [v]) ∧
    ((t.input = s.input ∧ t.taken = s.taken) ∨
      ∃ v, s.fetch = .ok .in_ ∧ s.input = v :: t.input ∧ t.taken = s.taken + 1)

/-- Errors are precise (R263, which the spec marks as derived): the erroring step sends no output, and only an IN that runs out
of memory has taken an input. -/
def Obligations.ErroringStepIsSilent : Prop :=
  ∀ (s t : State) (k : ErrorKind), s.status = .running → step s = .next t → t.status = .error k →
    t.output = s.output ∧
    ((t.input = s.input ∧ t.taken = s.taken) ∨
      ∃ v, s.fetch = .ok .in_ ∧ k = .outOfMemory ∧ s.input = v :: t.input ∧ t.taken = s.taken + 1)

/-- Register access (R24): only POP_REG writes a register and only PUSH_REG reads one. That no other instruction reads one is
said by replacing the register file: the outcome is the same but for the register file. And each register can be read and
written in every state of a run. -/
def Obligations.RegistersOnlyThroughMoves : Prop :=
  (∀ (i : Instr) (s t : State), s.status = .running → exec i s = .next t → t.Completed →
    (∀ reg, i ≠ .popReg reg) → t.regs = s.regs) ∧
  (∀ (i : Instr) (s : State) (r : Regs), (∀ reg, i ≠ .pushReg reg) →
    mapNext (fun t => { t with regs := r }) (exec i { s with regs := r }) =
      mapNext (fun t => { t with regs := r }) (exec i s)) ∧
  (∀ j : RegName, ∃ reg, regName reg = some j ∧
    (∀ (s : State) (v : Word) (rest : List Word), s.os = v :: rest →
      ∃ t, exec (.popReg reg) s = .next t ∧ t.regs.get j = v ∧ ∀ j', j' ≠ j → t.regs.get j' = s.regs.get j') ∧
    (∀ s : State, s.os.length ≠ s.params.opstackCap →
      ∃ t, exec (.pushReg reg) s = .next t ∧ t.os = s.regs.get j :: s.os))

/-- Only CALL pushes the call stack, only RET pops it, and no other instruction reads it (R31). CALL's capacity test is the
spec's decision D11. -/
def Obligations.CallStackIsolated : Prop :=
  (∀ (i : Instr) (s t : State), s.status = .running → exec i s = .next t → t.Completed →
    (∀ disp, i ≠ .call disp) → i ≠ .ret → t.cs = s.cs) ∧
  (∀ (disp : Word) (s t : State), s.status = .running → exec (.call disp) s = .next t → t.Completed →
    t.cs = (s.ip + 9) :: s.cs) ∧
  (∀ s t : State, s.status = .running → exec .ret s = .next t → t.Completed → s.cs = t.ip :: t.cs) ∧
  (∀ (i : Instr) (s : State) (c : List Word), (∀ disp, i ≠ .call disp) → i ≠ .ret →
    mapNext (fun t => { t with cs := c }) (exec i { s with cs := c }) = mapNext (fun t => { t with cs := c }) (exec i s))

/-- HALT, JMP, CALL and RET do not touch the operand stack: they leave it and do not depend on it (R30, R202). -/
def Obligations.OperandStackUntouched : Prop :=
  ∀ (i : Instr) (disp : Word), i ∈ [Instr.halt, Instr.jmp disp, Instr.call disp, Instr.ret] →
    (∀ s t : State, s.status = .running → exec i s = .next t → t.Completed → t.os = s.os) ∧
    (∀ (s : State) (o : List Word),
      mapNext (fun t => { t with os := o }) (exec i { s with os := o }) = mapNext (fun t => { t with os := o }) (exec i s))

/-- No step changes a parameter, and no step of a run changes the buffer or takes a start request (R50, R302; the start ports are
the spec's decision D17, their queue the model's log entry 13). -/
def Obligations.StepKeepsParamsAndBuffer : Prop :=
  ∀ s t : State, step s = .next t →
    t.params = s.params ∧ (s.status = .running → t.prog = s.prog ∧ t.pendingStarts = s.pendingStarts)

/-- The bits of STATUS (R28, R260; the numbering is the spec's decision D18): STATE in [3:0], KIND in [7:4], zero above. -/
def Obligations.StatusWordLayout : Prop :=
  (∀ s : State, s.statusWord >>> 8 = 0) ∧
  ∀ (s : State) (w : Word),
    (s.status, w) ∈ [(Status.idle, 0x00#64), (Status.running, 0x01#64), (Status.halted, 0x02#64),
      (Status.refused, 0x04#64), (Status.error .headerMismatch, 0x13#64), (Status.error .outOfMemory, 0x23#64),
      (Status.error .popFromEmptyStack, 0x33#64), (Status.error .notEnoughArgs, 0x43#64),
      (Status.error .unknownRegister, 0x53#64), (Status.error .unknownCommand, 0x63#64),
      (Status.error .noHalt, 0x73#64), (Status.error .badJumpAddress, 0x83#64),
      (Status.error .retWithoutCall, 0x93#64)] → s.statusWord = w

/-- Every instruction may be executed in every state and answers a next state: none is refused and none faults (R110, R268;
that RSVD22 answers the state with STATUS REFUSED follows the spec's decision D20, log entry 11). -/
def Obligations.EveryInstructionAnswersNextState : Prop :=
  ∀ (i : Instr) (s : State), ∃ t, exec i s = .next t

/-! ### Control and I/O -/

/-- HALT (R130): one byte; STATUS becomes (HALTED, 0); `ip`, registers and stacks are left as they are, whatever the stacks
hold; and no other instruction ends a run so. That they are left so rests on the words of R130 where D23, U12 and R305 say that
they are not observable after HALTED: the model's choice, log entry 10. -/
def Obligations.HaltEndsRun : Prop :=
  ∀ s : State, encode s.params .halt = [s.params.opcodeByte .halt] ∧
    exec .halt s = .next { s with status := .halted } ∧
    ∀ (i : Instr) (t : State), s.status = .running → exec i s = .next t → t.status = .halted → i = .halt

/-- IN (R131 to R133): with a value presented and room it is taken and pushed bit for bit, whatever its pattern; with a full
stack OutOfMemory is raised and the value is gone; with no value the state does not change. The port, the order of the two
and the capacity are the spec's decisions D15, D17, D8 and D11. -/
def Obligations.InTakesAndPushes : Prop :=
  ∀ s : State, encode s.params .in_ = [s.params.opcodeByte .in_] ∧
    (∀ v rest, s.input = v :: rest → s.os.length ≠ s.params.opstackCap →
      exec .in_ s = .next { s with input := rest, taken := s.taken + 1, os := v :: s.os, ip := s.ip + 1 }) ∧
    (∀ v rest, s.input = v :: rest → s.os.length = s.params.opstackCap →
      ErrsWith .outOfMemory { s with input := rest, taken := s.taken + 1 } (exec .in_ s)) ∧
    (s.input = [] → exec .in_ s = .next s)

/-- An IN whose port is empty waits with no state change, however long, and the value the host then presents completes it (R131,
R274). The port is the spec's decisions D15 and D17, and its list of values the model's choice, log entry 14. -/
def Obligations.InWaitsForHost : Prop :=
  ∀ s : State, s.awaitsInput = true →
    (∀ n, Host.Core.run core n s = .next s) ∧
    ∀ v, s.os.length ≠ s.params.opstackCap →
      step (s.supplyInput v) = .next { s with taken := s.taken + 1, os := v :: s.os, ip := s.ip + 1 }

/-- OUT (R134, R135): one byte; pops one value and sends its 64-bit pattern after all earlier ones; on an empty stack
PopFromEmptyStack and no output. The port and what it carries are the spec's decisions D17 and D16; that the run's outputs are a
list is the model's choice, log entry 15. -/
def Obligations.OutPopsAndSends : Prop :=
  ∀ s : State, encode s.params .out = [s.params.opcodeByte .out] ∧
    (∀ v rest, s.os = v :: rest →
      exec .out s = .next { s with os := rest, output := s.output ++ [v], ip := s.ip + 1 }) ∧
    (s.os = [] → ErrsWith .popFromEmptyStack s (exec .out s))

/-! ### Operators on the operand stack -/

/-- Operand order (R152): the first value popped is the right-hand operand and the second the left-hand one; one result is
pushed and nothing else but `ip` changes. -/
def Obligations.OperandOrder : Prop :=
  ∀ (i : Instr) (f : Word → Word → Word),
    (i, f) ∈ [(Instr.add, F64.fadd), (Instr.sub, F64.fsub), (Instr.mul, F64.fmul), (Instr.div, F64.fdiv),
      (Instr.less, lessWord), (Instr.greater, greaterWord), (Instr.or, orWord), (Instr.and, andWord)] →
    ∀ (s : State) (a b : Word) (rest : List Word), s.os = b :: a :: rest →
      exec i s = .next { s with os := f a b :: rest, ip := s.ip + 1 }

/-- Argument count (R153): with too few operands NotEnoughArgs is raised, otherwise the operation completes; these ten never
raise PopFromEmptyStack or OutOfMemory. -/
def Obligations.ArgumentCount : Prop :=
  ∀ (i : Instr) (n : Nat),
    (i, n) ∈ [(Instr.add, 2), (Instr.sub, 2), (Instr.mul, 2), (Instr.div, 2), (Instr.less, 2), (Instr.greater, 2),
      (Instr.or, 2), (Instr.and, 2), (Instr.sqrt, 1), (Instr.not, 1)] →
    ∀ s : State, (s.os.length < n → ErrsWith .notEnoughArgs s (exec i s)) ∧
      (n ≤ s.os.length → ∃ t, exec i s = .next t ∧ t.status = s.status ∧ t.os.length + n = s.os.length + 1)

/-- SQRT and NOT replace the top value alone (R159, R236; which function NOT is follows NOT_MODE, the spec's decision D10). -/
def Obligations.UnaryOperatorsReplaceTop : Prop :=
  ∀ (s : State) (x : Word) (rest : List Word), s.os = x :: rest →
    exec .sqrt s = .next { s with os := F64.fsqrt x :: rest, ip := s.ip + 1 } ∧
    exec .not s = .next { s with os := notWord s.params.notMode x :: rest, ip := s.ip + 1 }

/-- LESS and GREATER (R232, R233): one byte each, the result exactly 1.0 or -1.0, NotEnoughArgs on fewer than two operands,
and the corner cases and examples of both rules. The clauses on NaN operands and on the zeros rest on general knowledge, G3 (log
entry 29). -/
def Obligations.LessAndGreater : Prop :=
  (∀ s : State,
    encode s.params .less = [s.params.opcodeByte .less] ∧ encode s.params .greater = [s.params.opcodeByte .greater] ∧
    (∀ a b rest, s.os = b :: a :: rest →
      exec .less s = .next { s with
        os := (if flt a b then 0x3FF0000000000000 else 0xBFF0000000000000) :: rest, ip := s.ip + 1 } ∧
      exec .greater s = .next { s with
        os := (if fgt a b then 0x3FF0000000000000 else 0xBFF0000000000000) :: rest, ip := s.ip + 1 }) ∧
    (s.os.length < 2 → ErrsWith .notEnoughArgs s (exec .less s) ∧ ErrsWith .notEnoughArgs s (exec .greater s))) ∧
  (∀ a b : Word, F64.isNaN a = true ∨ F64.isNaN b = true → flt a b = false ∧ fgt a b = false) ∧
  (∀ a : Word, flt a a = false ∧ fgt a a = false) ∧
  flt F64.negZero F64.posZero = false ∧
  fgt 0x7FF0000000000000 0x7FE1CCF385EBC8A0 = true ∧
  flt 0x4000000000000000 0x4008000000000000 = true ∧ fgt 0x4000000000000000 0x4008000000000000 = false

/-- OR and AND (R234, R235): one byte each, both operands popped, the result exactly 1.0 or -1.0 from strict positivity of the
operands, NotEnoughArgs on fewer than two, and the corner cases and examples of both rules. That NaNs and zeros are not strictly positive rests on general knowledge, G3
(log entry 29). -/
def Obligations.OrAndAnd : Prop :=
  (∀ s : State,
    encode s.params .or = [s.params.opcodeByte .or] ∧ encode s.params .and = [s.params.opcodeByte .and] ∧
    (∀ a b rest, s.os = b :: a :: rest →
      exec .or s = .next { s with
        os := (if pos a = true ∨ pos b = true then 0x3FF0000000000000 else 0xBFF0000000000000) :: rest
        ip := s.ip + 1 } ∧
      exec .and s = .next { s with
        os := (if pos a = true ∧ pos b = true then 0x3FF0000000000000 else 0xBFF0000000000000) :: rest
        ip := s.ip + 1 }) ∧
    (s.os.length < 2 → ErrsWith .notEnoughArgs s (exec .or s) ∧ ErrsWith .notEnoughArgs s (exec .and s))) ∧
  orWord F64.posZero F64.negZero = falseWord ∧
  (∀ n : Word, F64.isNaN n = true → orWord n 0x3FE0000000000000 = trueWord ∧
    andWord 0x3FF0000000000000 n = falseWord) ∧
  andWord 0x4000000000000000 0x3F50624DD2F1A9FC = trueWord ∧
  andWord 0x3FF0000000000000 F64.posZero = falseWord ∧
  orWord 0xBFF0000000000000 0x3FF0000000000000 = trueWord ∧ andWord 0x3FF0000000000000 0xBFF0000000000000 = falseWord

/-- NOT (R236): in mode `negate` the sign bit alone is flipped, in mode `boolean` the truth value is inverted; both give -1.0 for
1.0 and 1.0 for -1.0. The two modes are the spec's decision D10, and that `negate` flips the sign bit alone is general
knowledge (G4). -/
def Obligations.NotNegates : Prop :=
  (∀ s : State, encode s.params .not = [s.params.opcodeByte .not] ∧
    (∀ x rest, s.os = x :: rest → s.params.notMode = .negate →
      exec .not s = .next { s with os := (x ^^^ 0x8000000000000000) :: rest, ip := s.ip + 1 }) ∧
    (∀ x rest, s.os = x :: rest → s.params.notMode = .boolean →
      exec .not s = .next { s with
        os := (if pos x then 0xBFF0000000000000 else 0x3FF0000000000000) :: rest, ip := s.ip + 1 }) ∧
    (s.os = [] → ErrsWith .notEnoughArgs s (exec .not s))) ∧
  ∀ m : NotMode, notWord m 0x3FF0000000000000 = 0xBFF0000000000000 ∧
    notWord m 0xBFF0000000000000 = 0x3FF0000000000000

/-! ### Stack moves -/

/-- POP (R181): one byte; the top is discarded, registers and call stack unchanged; PopFromEmptyStack on an empty stack. -/
def Obligations.PopDiscardsTop : Prop :=
  ∀ s : State, encode s.params .pop = [s.params.opcodeByte .pop] ∧
    (∀ v rest, s.os = v :: rest → exec .pop s = .next { s with os := rest, ip := s.ip + 1 }) ∧
    (s.os = [] → ErrsWith .popFromEmptyStack s (exec .pop s))

/-- POP_REG (R183): a register byte of 0 to 3 names the register that takes the top's pattern; a larger one raises
UnknownRegister whatever the stack holds (the order is the spec's decision D8), and an empty stack PopFromEmptyStack. -/
def Obligations.PopRegMovesTopToRegister : Prop :=
  ∀ (s : State) (reg : Byte), encode s.params (.popReg reg) = [s.params.opcodeByte .popReg, reg] ∧
    (∀ v rest, s.os = v :: rest →
      (reg = 0 → exec (.popReg reg) s =
        .next { s with os := rest, regs := { s.regs with rax := v }, ip := s.ip + 2 }) ∧
      (reg = 1 → exec (.popReg reg) s =
        .next { s with os := rest, regs := { s.regs with rbx := v }, ip := s.ip + 2 }) ∧
      (reg = 2 → exec (.popReg reg) s =
        .next { s with os := rest, regs := { s.regs with rcx := v }, ip := s.ip + 2 }) ∧
      (reg = 3 → exec (.popReg reg) s =
        .next { s with os := rest, regs := { s.regs with rdx := v }, ip := s.ip + 2 })) ∧
    (3 < reg.toNat → ErrsWith .unknownRegister s (exec (.popReg reg) s)) ∧
    (reg.toNat ≤ 3 → s.os = [] → ErrsWith .popFromEmptyStack s (exec (.popReg reg) s))

/-- PUSH_VAL (R184): the literal's pattern is pushed bit for bit; OutOfMemory at the capacity (the spec's decision D11). -/
def Obligations.PushValPushesLiteral : Prop :=
  ∀ (s : State) (imm : Word),
    encode s.params (.pushVal imm) = s.params.opcodeByte .pushVal :: bytesOfWord s.params.endian imm ∧
    (s.os.length ≠ s.params.opstackCap →
      exec (.pushVal imm) s = .next { s with os := imm :: s.os, ip := s.ip + 9 }) ∧
    (s.os.length = s.params.opstackCap → ErrsWith .outOfMemory s (exec (.pushVal imm) s))

/-- PUSH_REG (R185): a copy of the named register is pushed; UnknownRegister comes before OutOfMemory (the spec's decisions D8 and
D11). -/
def Obligations.PushRegPushesCopy : Prop :=
  ∀ (s : State) (reg : Byte), encode s.params (.pushReg reg) = [s.params.opcodeByte .pushReg, reg] ∧
    (s.os.length ≠ s.params.opstackCap →
      (reg = 0 → exec (.pushReg reg) s = .next { s with os := s.regs.rax :: s.os, ip := s.ip + 2 }) ∧
      (reg = 1 → exec (.pushReg reg) s = .next { s with os := s.regs.rbx :: s.os, ip := s.ip + 2 }) ∧
      (reg = 2 → exec (.pushReg reg) s = .next { s with os := s.regs.rcx :: s.os, ip := s.ip + 2 }) ∧
      (reg = 3 → exec (.pushReg reg) s = .next { s with os := s.regs.rdx :: s.os, ip := s.ip + 2 })) ∧
    (3 < reg.toNat → ErrsWith .unknownRegister s (exec (.pushReg reg) s)) ∧
    (reg.toNat ≤ 3 → s.os.length = s.params.opstackCap → ErrsWith .outOfMemory s (exec (.pushReg reg) s))

/-! ### Control flow -/

/-- JMP (R203): `ip` becomes field end plus displacement if that target is in bounds, else BadJumpAddress. What happens to a
target inside the header follows HEADER_TARGET_POLICY, the spec's decision D6. -/
def Obligations.JmpJumps : Prop :=
  ∀ (s : State) (disp : Word),
    encode s.params (.jmp disp) = s.params.opcodeByte .jmp :: bytesOfWord s.params.endian disp ∧
    (s.InBounds (s.ip + 9 + disp) → exec (.jmp disp) s = .next { s with ip := s.ip + 9 + disp }) ∧
    (¬ s.InBounds (s.ip + 9 + disp) → ErrsWith .badJumpAddress s (exec (.jmp disp) s))

/-- JIF (R204): the value is consumed in both cases; strictly positive jumps, anything else falls through. The error on an empty
stack, the check of an untaken target and the header policy are the spec's decisions D9, D7 and D6. -/
def Obligations.JifJumpsIfPositive : Prop :=
  ∀ (s : State) (disp : Word),
    encode s.params (.jif disp) = s.params.opcodeByte .jif :: bytesOfWord s.params.endian disp ∧
    (∀ v rest, s.os = v :: rest → pos v = true → s.InBounds (s.ip + 9 + disp) →
      exec (.jif disp) s = .next { s with os := rest, ip := s.ip + 9 + disp }) ∧
    (∀ v rest, s.os = v :: rest → pos v = false →
      s.params.jifUntakenCheck = false ∨ s.InBounds (s.ip + 9 + disp) →
      exec (.jif disp) s = .next { s with os := rest, ip := s.ip + 9 }) ∧
    (∀ v rest, s.os = v :: rest → pos v = true ∨ s.params.jifUntakenCheck = true →
      ¬ s.InBounds (s.ip + 9 + disp) → ErrsWith .badJumpAddress s (exec (.jif disp) s)) ∧
    (s.os = [] → ErrsWith .popFromEmptyStack s (exec (.jif disp) s))

/-- CALL (R205): the field end is pushed on the call stack and `ip` becomes the target; OutOfMemory comes before BadJumpAddress.
Capacity, order and header policy are the spec's decisions D11, D8 and D6. -/
def Obligations.CallPushesAndJumps : Prop :=
  ∀ (s : State) (disp : Word),
    encode s.params (.call disp) = s.params.opcodeByte .call :: bytesOfWord s.params.endian disp ∧
    (s.cs.length ≠ s.params.callstackCap → s.InBounds (s.ip + 9 + disp) →
      exec (.call disp) s = .next { s with cs := (s.ip + 9) :: s.cs, ip := s.ip + 9 + disp }) ∧
    (s.cs.length = s.params.callstackCap → ErrsWith .outOfMemory s (exec (.call disp) s)) ∧
    (s.cs.length ≠ s.params.callstackCap → ¬ s.InBounds (s.ip + 9 + disp) →
      ErrsWith .badJumpAddress s (exec (.call disp) s))

/-- RET (R206): `ip` becomes the popped return address, unchecked (the spec's decision D28); RetWithoutCall on an empty call
stack. -/
def Obligations.RetReturns : Prop :=
  ∀ s : State, encode s.params .ret = [s.params.opcodeByte .ret] ∧
    (∀ r rest, s.cs = r :: rest → exec .ret s = .next { s with cs := rest, ip := r }) ∧
    (s.cs = [] → ErrsWith .retWithoutCall s (exec .ret s))

/-- RSVD22 (R80, R261, the spec's decision D20): STATUS becomes (REFUSED, 0), nothing is sent or taken, the buffer stays; of `ip`,
registers and stacks nothing is said (log entry 11), and no further step is given until a start. -/
def Obligations.UnnamedOpcodeRefuses : Prop :=
  ∀ s : State, ∃ t, exec .rsvd22 s = .next t ∧ t.status = .refused ∧ t.statusWord = 0x04 ∧ t.output = s.output ∧
    t.input = s.input ∧ t.taken = s.taken ∧ t.prog = s.prog ∧ t.params = s.params ∧
    t.pendingStarts = s.pendingStarts ∧ (s.pendingStarts = [] → step t = .refused .unnamedOpcode)

/-! ### Primitives, targets and sequences -/

/-- The two pops (R105, R107): the last value pushed is returned and removed; an empty operand stack raises PopFromEmptyStack, an
empty call stack RetWithoutCall. -/
def Obligations.PopPrimitives : Prop :=
  ∀ (s : State) (next : Word → State → Result),
    (∀ v rest, s.os = v :: rest → popOs s next = next v { s with os := rest }) ∧
    (s.os = [] → ErrsWith .popFromEmptyStack s (popOs s next)) ∧
    (∀ r rest, s.cs = r :: rest → popCs s next = next r { s with cs := rest }) ∧
    (s.cs = [] → ErrsWith .retWithoutCall s (popCs s next))

/-- The two pushes (R104, R106): at the capacity OutOfMemory, else the value goes on top. The capacities are the spec's decision
D11. -/
def Obligations.PushPrimitives : Prop :=
  ∀ (s : State) (v : Word) (next : State → Result),
    (s.os.length = s.params.opstackCap → ErrsWith .outOfMemory s (pushOs v s next)) ∧
    (s.os.length ≠ s.params.opstackCap → pushOs v s next = next { s with os := v :: s.os }) ∧
    (s.cs.length = s.params.callstackCap → ErrsWith .outOfMemory s (pushCs v s next)) ∧
    (s.cs.length ≠ s.params.callstackCap → pushCs v s next = next { s with cs := v :: s.cs })

/-- Targets (R76): the displacement is the eight bytes after the opcode byte in ENDIAN order; the target is field end plus
displacement modulo 2^64; read as signed it gives the same target whenever that lies below 2^63; 2^64 - k is a distance of k
bytes back. -/
def Obligations.TargetComputation : Prop :=
  (∀ (s : State) (i : Instr) (disp : Word), i ∈ [Instr.jmp disp, Instr.jif disp, Instr.call disp] →
    s.fetch = .ok i → disp = wordOfBytes s.params.endian (s.prog.bytesFrom (s.ip.toNat + 1) 8)) ∧
  (∀ (s : State) (disp : Word), (s.target disp).toNat = (s.ip.toNat + 9 + disp.toNat) % 2 ^ 64) ∧
  (∀ (s : State) (disp : Word), 0 ≤ (s.ip.toNat : Int) + 9 + disp.toInt →
    (s.ip.toNat : Int) + 9 + disp.toInt < 2 ^ 63 →
    ((s.target disp).toNat : Int) = (s.ip.toNat : Int) + 9 + disp.toInt) ∧
  (∀ (s : State) (k : Nat), 0 < k → k ≤ s.ip.toNat + 9 → s.ip.toNat + 9 < 2 ^ 64 →
    (s.target (BitVec.ofNat 64 (2 ^ 64 - k))).toNat = s.ip.toNat + 9 - k)

/-- The assembler's displacement for a label resolves to the label (R84, surrounding software): jumps with it go there. -/
def Obligations.AssembledJumpReachesLabel : Prop :=
  ∀ (s : State) (label : Word), s.InBounds label →
    exec (.jmp (label - (s.ip + 1 + 8))) s = .next { s with ip := label } ∧
    (s.cs.length ≠ s.params.callstackCap →
      exec (.call (label - (s.ip + 1 + 8))) s = .next { s with cs := (s.ip + 9) :: s.cs, ip := label }) ∧
    (∀ v rest, s.os = v :: rest → pos v = true →
      exec (.jif (label - (s.ip + 1 + 8))) s = .next { s with os := rest, ip := label })

/-- A jump to itself is an infinite run with no state change (R112, R203); the machine has no step limit. Its bound check is under
the spec's decision D6. -/
def Obligations.SelfJumpLoopsForever : Prop :=
  ∀ (s : State) (n : Nat), s.status = .running → s.fetch = .ok (.jmp (BitVec.ofNat 64 (2 ^ 64 - 9))) →
    s.InBounds s.ip → Host.Core.run core n s = .next s

/-- A RET that finds the call stack a CALL left goes to that CALL's field end and restores the call stack (R205, R206; capacity
and header policy are the spec's decisions D11 and D6). -/
def Obligations.CallThenReturn : Prop :=
  ∀ (s : State) (disp : Word), s.cs.length ≠ s.params.callstackCap → s.InBounds (s.ip + 9 + disp) →
    ∃ t, exec (.call disp) s = .next t ∧ t.ip = s.ip + 9 + disp ∧ t.os = s.os ∧ t.regs = s.regs ∧
      ∀ u : State, u.cs = t.cs → exec .ret u = .next { u with cs := s.cs, ip := s.ip + 9 }

/-- Moves copy all 64 bits (R182, the spec's decision D21): a value popped into a register and pushed back is the same pattern, and a
literal pushed and popped into a register is the register's new pattern. -/
def Obligations.MovesAreBitExact : Prop :=
  ∀ (s : State) (reg : Byte), reg.toNat ≤ 3 →
    (∀ v rest, s.os = v :: rest → rest.length ≠ s.params.opstackCap →
      ∃ t u, exec (.popReg reg) s = .next t ∧ exec (.pushReg reg) t = .next u ∧ u.os = s.os ∧ u.regs = t.regs) ∧
    (∀ imm, s.os.length ≠ s.params.opstackCap →
      ∃ t u j, exec (.pushVal imm) s = .next t ∧ exec (.popReg reg) t = .next u ∧ regName reg = some j ∧
        u.regs.get j = imm ∧ u.os = s.os)

/-- A register nothing has written since the start of the run reads as RESET_NAN and is no fault (R25; the pattern is the parameter of
the spec's decision D12). An accepted start leaves RESET_NAN in every register; a step of a run keeps it in every register
but one that a POP_REG names; and a PUSH_REG of a register that holds it pushes it, in the first instruction of a run and in any
later one. The capacity is the spec's decision D11. -/
def Obligations.UnwrittenRegisterReadsResetNan : Prop :=
  (∀ (s : State) (img : Image), img.headerAccepted s.params = true →
    ∀ j, (State.start img s).regs.get j = (State.start img s).params.resetNan) ∧
  (∀ (s t : State) (j : RegName), s.status = .running → s.regs.get j = s.params.resetNan → step s = .next t →
    t.Completed → (∀ reg, s.fetch = .ok (.popReg reg) → regName reg ≠ some j) → t.regs.get j = t.params.resetNan) ∧
  (∀ (s : State) (reg : Byte) (j : RegName), regName reg = some j → s.regs.get j = s.params.resetNan →
    s.os.length ≠ s.params.opstackCap →
    exec (.pushReg reg) s = .next { s with os := s.params.resetNan :: s.os, ip := s.ip + 2 }) ∧
  ∀ (s : State) (img : Image) (reg : Byte), img.headerAccepted s.params = true → reg.toNat ≤ 3 →
    0 < s.params.opstackCap →
    ∃ t, exec (.pushReg reg) (State.start img s) = .next t ∧ t.os = [s.params.resetNan] ∧ t.status = .running

/-! ### Binary64 -/

/-- NaN results (R151): a NaN result is NAN_OF of the operation and the operand patterns, and NAN_OF always gives a NaN. NAN_OF is the
spec's decision D13 and a free value of the model, log entry 6: this holds for every such function. -/
def Obligations.NanResultsAreNanOf : Prop :=
  (∀ c : FpCall, F64.isNaN (F64.nanOf c) = true) ∧
  (∀ a b : Word,
    (F64.isNaN (F64.fadd a b) = true → F64.fadd a b = F64.nanOf (.add a b)) ∧
    (F64.isNaN (F64.fsub a b) = true → F64.fsub a b = F64.nanOf (.sub a b)) ∧
    (F64.isNaN (F64.fmul a b) = true → F64.fmul a b = F64.nanOf (.mul a b)) ∧
    (F64.isNaN (F64.fdiv a b) = true → F64.fdiv a b = F64.nanOf (.div a b))) ∧
  ∀ x : Word, F64.isNaN (F64.fsqrt x) = true → F64.fsqrt x = F64.nanOf (.sqrt x)

/-- Exactly the invalid operations of IEEE-754 give a NaN (general knowledge, G2): a NaN operand, opposite infinities added or equal ones
subtracted, zero times infinity, zero by zero, infinity by infinity, the root of a number below zero. -/
def Obligations.InvalidOperationsGiveNan : Prop :=
  (∀ a b : Word,
    (F64.isNaN (F64.fadd a b) = true ↔ F64.isNaN a = true ∨ F64.isNaN b = true ∨
      (F64.isInf a = true ∧ F64.isInf b = true ∧ F64.sign a ≠ F64.sign b)) ∧
    (F64.isNaN (F64.fsub a b) = true ↔ F64.isNaN a = true ∨ F64.isNaN b = true ∨
      (F64.isInf a = true ∧ F64.isInf b = true ∧ F64.sign a = F64.sign b)) ∧
    (F64.isNaN (F64.fmul a b) = true ↔ F64.isNaN a = true ∨ F64.isNaN b = true ∨
      (F64.isZero a = true ∧ F64.isInf b = true) ∨ (F64.isInf a = true ∧ F64.isZero b = true)) ∧
    (F64.isNaN (F64.fdiv a b) = true ↔ F64.isNaN a = true ∨ F64.isNaN b = true ∨
      (F64.isZero a = true ∧ F64.isZero b = true) ∨ (F64.isInf a = true ∧ F64.isInf b = true))) ∧
  ∀ x : Word, F64.isNaN (F64.fsqrt x) = true ↔ F64.isNaN x = true ∨ (F64.sign x = true ∧ F64.isZero x = false)

/-- Sums and differences of zeros and infinities, and the order of addends (R155, R156; general knowledge, G2). -/
def Obligations.SumsOfZerosAndInfinities : Prop :=
  F64.fadd F64.posZero F64.negZero = F64.posZero ∧ F64.fadd F64.negZero F64.negZero = F64.negZero ∧
  F64.fsub F64.negZero F64.posZero = F64.negZero ∧
  (∀ x : Word, F64.isFinite x = true → F64.fsub x x = F64.posZero) ∧
  (∀ a b : Word, F64.isInf a = true → F64.isFinite b = true →
    F64.fadd a b = a ∧ F64.fadd b a = a ∧ F64.fsub a b = a ∧ F64.fsub b a = F64.negate a) ∧
  ∀ a b : Word, F64.isNaN (F64.fadd a b) = false → F64.fadd a b = F64.fadd b a

/-- Signs of products and quotients, and division by zero and by infinity (R157, R158; general knowledge, G2, but for 5 / 0, which the
source states). -/
def Obligations.ProductsAndQuotients : Prop :=
  (∀ a b : Word, F64.isNaN (F64.fmul a b) = false → F64.sign (F64.fmul a b) = (F64.sign a != F64.sign b)) ∧
  (∀ a b : Word, F64.isNaN (F64.fdiv a b) = false → F64.sign (F64.fdiv a b) = (F64.sign a != F64.sign b)) ∧
  (∀ a b : Word, F64.isNaN a = false → F64.isZero a = false → F64.isZero b = true →
    F64.isInf (F64.fdiv a b) = true) ∧
  (∀ a b : Word, F64.isFinite a = true → F64.isInf b = true → F64.isZero (F64.fdiv a b) = true) ∧
  F64.fdiv 0x4014000000000000 F64.posZero = 0x7FF0000000000000 ∧
  ∀ a b : Word, F64.isNaN (F64.fmul a b) = false → F64.fmul a b = F64.fmul b a

/-- Square roots of zeros, infinity and other numbers (R159; general knowledge, G2): a zero and +inf are their own roots, and the root
of a positive number is a positive number, infinite only for +inf. -/
def Obligations.RootsOfZerosAndInfinity : Prop :=
  (∀ x : Word, F64.isZero x = true → F64.fsqrt x = x) ∧
  F64.fsqrt 0x7FF0000000000000 = 0x7FF0000000000000 ∧
  ∀ x : Word, F64.isFinite x = true → F64.isZero x = false → F64.sign x = false →
    F64.isFinite (F64.fsqrt x) = true ∧ F64.isZero (F64.fsqrt x) = false ∧ F64.sign (F64.fsqrt x) = false

/-- ADD and SUB compute the exact result and round it once, to nearest with ties to even (R150; the rounding is the spec's decision D14
and general knowledge, G1). -/
def Obligations.SumsAndDifferencesRoundOnce : Prop :=
  ∀ a b : Word, F64.isFinite a = true → F64.isFinite b = true →
    F64.RoundsTo ((F64.toRat a : ℝ) + (F64.toRat b : ℝ)) (F64.fadd a b) ∧
    F64.RoundsTo ((F64.toRat a : ℝ) - (F64.toRat b : ℝ)) (F64.fsub a b)

/-- MUL and DIV compute the exact result and round it once, to nearest with ties to even (R150; the rounding is the spec's decision D14
and general knowledge, G1). -/
def Obligations.ProductsAndQuotientsRoundOnce : Prop :=
  ∀ a b : Word, F64.isFinite a = true → F64.isFinite b = true →
    F64.RoundsTo ((F64.toRat a : ℝ) * (F64.toRat b : ℝ)) (F64.fmul a b) ∧
    (F64.isZero b = false → F64.RoundsTo ((F64.toRat a : ℝ) / (F64.toRat b : ℝ)) (F64.fdiv a b))

/-- SQRT computes the exact root and rounds it once, to nearest with ties to even (R150; the rounding is the spec's decision D14 and
general knowledge, G1). -/
def Obligations.SquareRootsRoundOnce : Prop :=
  ∀ x : Word, F64.isFinite x = true → F64.sign x = false → F64.RoundsTo (Real.sqrt (F64.toRat x : ℝ)) (F64.fsqrt x)

/-- The ordered comparisons (R230; their behaviour on NaN and zero is general knowledge, G3): false on a NaN, by the numbers on finite
values, and the infinities below and above every other number. -/
def Obligations.OrderedComparisons : Prop :=
  (∀ a b : Word, F64.isNaN a = true ∨ F64.isNaN b = true → flt a b = false ∧ fgt a b = false) ∧
  (∀ a b : Word, F64.isFinite a = true → F64.isFinite b = true →
    (flt a b = true ↔ F64.toRat a < F64.toRat b) ∧ (fgt a b = true ↔ F64.toRat b < F64.toRat a)) ∧
  (∀ a : Word, F64.isNaN a = false → a ≠ 0xFFF0000000000000 → flt 0xFFF0000000000000 a = true) ∧
  (∀ a : Word, F64.isNaN a = false → a ≠ 0x7FF0000000000000 → fgt 0x7FF0000000000000 a = true) ∧
  ∀ a b : Word, fgt a b = flt b a

/-- Truth values (R231): a boolean result is exactly 1.0 or -1.0, and an input to OR, AND and JIF is true exactly when it is
strictly positive; zeros, negative values and NaNs are false. That NaNs and both zeros are not positive rests on general knowledge,
G3 (log entry 29), and the range of JIF's target on the spec's decision D6 (log entry 7). -/
def Obligations.TruthValues : Prop :=
  (∀ a b w : Word, w ∈ [lessWord a b, greaterWord a b, orWord a b, andWord a b] →
    w = 0x3FF0000000000000 ∨ w = 0xBFF0000000000000) ∧
  (∀ a b : Word, (orWord a b = 0x3FF0000000000000 ↔ pos a = true ∨ pos b = true) ∧
    (andWord a b = 0x3FF0000000000000 ↔ pos a = true ∧ pos b = true)) ∧
  (∀ x : Word, pos x = true ↔ F64.isNaN x = false ∧ F64.isZero x = false ∧ F64.sign x = false) ∧
  (∀ (s : State) (disp v : Word) (rest : List Word), s.os = v :: rest → s.InBounds (s.ip + 9 + disp) →
    exec (.jif disp) s = .next { s with os := rest, ip := if pos v = true then s.ip + 9 + disp else s.ip + 9 }) ∧
  pos F64.posZero = false ∧ pos F64.negZero = false
end

