-- ==== Sys2Proof/Laws/Decode.lean ====
section
/-! SUPPORT. The laws of the decoder's and encoder's parts: tags, byte order, operand forms, lengths. -/

namespace Sys2Proof

@[simp] theorem Tag.mem_all (t : Tag) : t ∈ Tag.all := by cases t <;> decide

/-- What `tagOf` answers is a tag with that byte. -/
theorem Params.opcodeByte_of_tagOf {p : Params} {b : Byte} {t : Tag} (h : p.tagOf b = some t) :
    p.opcodeByte t = b := by
  simpa using List.find?_some h

/-- `tagOf` answers nothing exactly for the bytes outside the image of OPCODE_BYTE (R77). -/
theorem Params.tagOf_eq_none {p : Params} {b : Byte} : p.tagOf b = none ↔ ∀ t, p.opcodeByte t ≠ b := by
  simp [Params.tagOf, List.find?_eq_none]

/-- With an injective OPCODE_BYTE, `tagOf` undoes it (R72). -/
theorem Params.tagOf_opcodeByte {p : Params} (hp : ∀ t u, p.opcodeByte t = p.opcodeByte u → t = u) (t : Tag) :
    p.tagOf (p.opcodeByte t) = some t := by
  cases h : p.tagOf (p.opcodeByte t) with
  | none => exact absurd rfl (Params.tagOf_eq_none.1 h t)
  | some u => rw [hp u t (Params.opcodeByte_of_tagOf h)]

@[simp] theorem littleBytes_length (n : Nat) (w : Word) : (littleBytes n w).length = n := by
  induction n generalizing w with
  | zero => rfl
  | succ n ih => simp [littleBytes, ih]

@[simp] theorem bytesOfWord_length (e : Endian) (w : Word) : (bytesOfWord e w).length = 8 := by
  cases e <;> simp [bytesOfWord]

/-- The word of the low bytes of a word is its low part. -/
theorem littleWord_littleBytes (n : Nat) (w : Word) (h : w.toNat < 2 ^ (8 * n)) : littleWord (littleBytes n w) = w := by
  induction n generalizing w with
  | zero =>
    have : w = 0 := BitVec.eq_of_toNat_eq (by simpa using h)
    simp [littleBytes, littleWord, this]
  | succ n ih =>
    have hw : (w >>> 8).toNat < 2 ^ (8 * n) := by
      rw [BitVec.toNat_ushiftRight, Nat.shiftRight_eq_div_pow]
      refine Nat.div_lt_of_lt_mul ?_
      rwa [← pow_add, show 8 + 8 * n = 8 * (n + 1) by omega]
    rw [littleBytes, littleWord, ih _ hw]
    ext i hi
    simp only [BitVec.getElem_or, BitVec.getElem_setWidth, BitVec.getElem_shiftLeft, BitVec.getLsbD_setWidth]
    by_cases h8 : i < 8
    · simp [h8, hi]
    · have h2 : 8 + (i - 8) = i := by omega
      simp [h8, h2, hi]

/-- The low bytes of the word of bytes are those bytes. -/
theorem littleBytes_littleWord (bs : List Byte) (h : bs.length ≤ 8) :
    littleBytes bs.length (littleWord bs) = bs := by
  induction bs with
  | nil => rfl
  | cons b bs ih =>
    have hb : ∀ v : Word, (b.setWidth 64 ||| v <<< 8).setWidth 8 = b := by
      intro v; ext i hi; simp
    have hlt : ∀ l : List Byte, l.length < 8 → (littleWord l).toNat < 2 ^ (8 * l.length) := by
      intro l
      induction l with
      | nil => intro _; simp [littleWord]
      | cons c l ihl =>
        intro hl
        have hl' : l.length < 8 := by simp at hl; omega
        have h1 := ihl hl'
        rw [littleWord, BitVec.toNat_or]
        refine Nat.or_lt_two_pow ?_ ?_
        · simp only [BitVec.toNat_setWidth]
          have hc := c.isLt
          calc c.toNat % 2 ^ 64 ≤ c.toNat := Nat.mod_le _ _
            _ < 2 ^ 8 := hc
            _ ≤ 2 ^ (8 * (c :: l).length) := Nat.pow_le_pow_right (by decide) (by simp)
        · rw [BitVec.toNat_shiftLeft, Nat.shiftLeft_eq]
          calc (littleWord l).toNat * 2 ^ 8 % 2 ^ 64 ≤ (littleWord l).toNat * 2 ^ 8 := Nat.mod_le _ _
            _ < 2 ^ (8 * l.length) * 2 ^ 8 := Nat.mul_lt_mul_of_pos_right h1 (by decide)
            _ = 2 ^ (8 * (c :: l).length) := by rw [← pow_add, List.length_cons, Nat.mul_succ]
    have hbs : (b.setWidth 64 ||| littleWord bs <<< 8) >>> 8 = littleWord bs := by
      have h8 : bs.length < 8 := by simp at h; omega
      have hs := hlt bs h8
      have h56 : (littleWord bs).toNat < 2 ^ 56 :=
        Nat.lt_of_lt_of_le hs (Nat.pow_le_pow_right (by decide) (by omega))
      ext i hi
      simp only [BitVec.getElem_ushiftRight, BitVec.getLsbD_or, BitVec.getLsbD_setWidth, BitVec.getLsbD_shiftLeft]
      have h1 : b.getLsbD (8 + i) = false := BitVec.getLsbD_of_ge _ _ (by omega)
      by_cases hi56 : i < 56
      · simp [show 8 + i < 64 by omega, hi]
      · have : (littleWord bs)[i] = false := by
          rw [← BitVec.getLsbD_eq_getElem, ← BitVec.testBit_toNat]
          exact Nat.testBit_lt_two_pow (Nat.lt_of_lt_of_le h56 (Nat.pow_le_pow_right (by decide) (by omega)))
        simp [this, show ¬ (8 + i < 64) by omega]
    simp only [List.length_cons, littleBytes, littleWord, hb, hbs]
    rw [ih (by simp at h; omega)]

/-- A field written and read back in the same byte order is the field (R53). -/
@[simp] theorem wordOfBytes_bytesOfWord (e : Endian) (w : Word) : wordOfBytes e (bytesOfWord e w) = w := by
  cases e <;> simp [wordOfBytes, bytesOfWord, littleWord_littleBytes 8 w w.isLt]

/-- Eight bytes read and written back in the same byte order are those bytes (R53). -/
theorem bytesOfWord_wordOfBytes (e : Endian) (bs : List Byte) (h : bs.length = 8) :
    bytesOfWord e (wordOfBytes e bs) = bs := by
  cases e with
  | little => simpa [wordOfBytes, bytesOfWord, h] using littleBytes_littleWord bs (by omega)
  | big =>
    have := littleBytes_littleWord bs.reverse (by simp; omega)
    rw [List.length_reverse, h] at this
    simp [wordOfBytes, bytesOfWord, this]

/-- Everything format FR can answer (R74, R102, R103). -/
theorem decodeReg_eq_ok {make : Byte → Instr} {bs rest : List Byte} {i : Instr} :
    decodeReg make bs = .ok (i, rest) ↔ ∃ reg, bs = reg :: rest ∧ RegByteOk reg ∧ i = make reg := by
  cases bs with
  | nil => simp [decodeReg]
  | cons r bs =>
    by_cases h : r.toNat ≤ 3
    · simp only [decodeReg, h, if_true, Except.ok.injEq, Prod.mk.injEq, List.cons.injEq]
      exact ⟨fun ⟨hi, hr⟩ => ⟨r, ⟨rfl, hr⟩, h, hi.symm⟩, fun ⟨_, ⟨hr, hb⟩, _, hi⟩ => ⟨by rw [hi, hr], hb⟩⟩
    · simp only [decodeReg, h, if_false, reduceCtorEq, List.cons.injEq, false_iff]
      rintro ⟨reg, ⟨rfl, -⟩, hr, -⟩
      exact h hr

/-- Everything formats FL and FD can answer (R75, R76, R102). -/
theorem decodeWord_eq_ok {e : Endian} {make : Word → Instr} {bs rest : List Byte} {i : Instr} :
    decodeWord e make bs = .ok (i, rest) ↔ ∃ w, bs = bytesOfWord e w ++ rest ∧ i = make w := by
  unfold decodeWord
  split
  · next h =>
    constructor
    · intro h'; cases h'
    · rintro ⟨w, rfl, -⟩; simp at h
  · next h =>
    constructor
    · intro h'
      cases h'
      refine ⟨_, ?_, rfl⟩
      rw [bytesOfWord_wordOfBytes e _ (by simpa using h), List.take_append_drop]
    · rintro ⟨w, rfl, rfl⟩
      simp

/-- An instruction's operand bytes are as many as its format says (R70). -/
theorem Instr.operandBytes_length (e : Endian) (i : Instr) :
    (i.operandBytes e).length = i.tag.format.operandLen := by
  cases i <;> simp [Instr.operandBytes, Instr.tag, Tag.format, Format.operandLen]

/-- The parts of R70 put together: an encoding is as long as its format says. -/
theorem encode_length (p : Params) (i : Instr) : (encode p i).length = i.tag.format.length := by
  simp [encode, Format.length, Instr.operandBytes_length, Nat.add_comm]

/-- No instruction is longer than nine bytes (R70). -/
theorem Format.length_le (f : Format) : f.length ≤ maxLength := by cases f <;> decide

end Sys2Proof
end

