-- ==== Sys2Proof/Laws/State.lean ====
section
/-! SUPPORT. For each named update of State, what each field is after it: one lemma a field, true by definition. -/

namespace Sys2Proof.Machine

@[simp] theorem State.setIp_params (s : State) (v : Word) : (s.setIp v).params = s.params := rfl
@[simp] theorem State.setIp_prog (s : State) (v : Word) : (s.setIp v).prog = s.prog := rfl
@[simp] theorem State.setIp_ip (s : State) (v : Word) : (s.setIp v).ip = v := rfl
@[simp] theorem State.setIp_regs (s : State) (v : Word) : (s.setIp v).regs = s.regs := rfl
@[simp] theorem State.setIp_os (s : State) (v : Word) : (s.setIp v).os = s.os := rfl
@[simp] theorem State.setIp_cs (s : State) (v : Word) : (s.setIp v).cs = s.cs := rfl
@[simp] theorem State.setIp_status (s : State) (v : Word) : (s.setIp v).status = s.status := rfl
@[simp] theorem State.setIp_input (s : State) (v : Word) : (s.setIp v).input = s.input := rfl
@[simp] theorem State.setIp_taken (s : State) (v : Word) : (s.setIp v).taken = s.taken := rfl
@[simp] theorem State.setIp_output (s : State) (v : Word) : (s.setIp v).output = s.output := rfl
@[simp] theorem State.setIp_pendingStarts (s : State) (v : Word) : (s.setIp v).pendingStarts = s.pendingStarts := rfl
@[simp] theorem State.setIp_draws (s : State) (v : Word) : (s.setIp v).draws = s.draws := rfl

@[simp] theorem State.advance_params (s : State) (f : Format) : (s.advance f).params = s.params := rfl
@[simp] theorem State.advance_prog (s : State) (f : Format) : (s.advance f).prog = s.prog := rfl
@[simp] theorem State.advance_ip (s : State) (f : Format) : (s.advance f).ip = s.nextIp f := rfl
@[simp] theorem State.advance_regs (s : State) (f : Format) : (s.advance f).regs = s.regs := rfl
@[simp] theorem State.advance_os (s : State) (f : Format) : (s.advance f).os = s.os := rfl
@[simp] theorem State.advance_cs (s : State) (f : Format) : (s.advance f).cs = s.cs := rfl
@[simp] theorem State.advance_status (s : State) (f : Format) : (s.advance f).status = s.status := rfl
@[simp] theorem State.advance_input (s : State) (f : Format) : (s.advance f).input = s.input := rfl
@[simp] theorem State.advance_taken (s : State) (f : Format) : (s.advance f).taken = s.taken := rfl
@[simp] theorem State.advance_output (s : State) (f : Format) : (s.advance f).output = s.output := rfl
@[simp] theorem State.advance_pendingStarts (s : State) (f : Format) :
    (s.advance f).pendingStarts = s.pendingStarts := rfl
@[simp] theorem State.advance_draws (s : State) (f : Format) : (s.advance f).draws = s.draws := rfl

@[simp] theorem State.setOs_params (s : State) (l : List Word) : (s.setOs l).params = s.params := rfl
@[simp] theorem State.setOs_prog (s : State) (l : List Word) : (s.setOs l).prog = s.prog := rfl
@[simp] theorem State.setOs_ip (s : State) (l : List Word) : (s.setOs l).ip = s.ip := rfl
@[simp] theorem State.setOs_regs (s : State) (l : List Word) : (s.setOs l).regs = s.regs := rfl
@[simp] theorem State.setOs_os (s : State) (l : List Word) : (s.setOs l).os = l := rfl
@[simp] theorem State.setOs_cs (s : State) (l : List Word) : (s.setOs l).cs = s.cs := rfl
@[simp] theorem State.setOs_status (s : State) (l : List Word) : (s.setOs l).status = s.status := rfl
@[simp] theorem State.setOs_input (s : State) (l : List Word) : (s.setOs l).input = s.input := rfl
@[simp] theorem State.setOs_taken (s : State) (l : List Word) : (s.setOs l).taken = s.taken := rfl
@[simp] theorem State.setOs_output (s : State) (l : List Word) : (s.setOs l).output = s.output := rfl
@[simp] theorem State.setOs_pendingStarts (s : State) (l : List Word) :
    (s.setOs l).pendingStarts = s.pendingStarts := rfl
@[simp] theorem State.setOs_draws (s : State) (l : List Word) : (s.setOs l).draws = s.draws := rfl

@[simp] theorem State.setCs_params (s : State) (l : List Word) : (s.setCs l).params = s.params := rfl
@[simp] theorem State.setCs_prog (s : State) (l : List Word) : (s.setCs l).prog = s.prog := rfl
@[simp] theorem State.setCs_ip (s : State) (l : List Word) : (s.setCs l).ip = s.ip := rfl
@[simp] theorem State.setCs_regs (s : State) (l : List Word) : (s.setCs l).regs = s.regs := rfl
@[simp] theorem State.setCs_os (s : State) (l : List Word) : (s.setCs l).os = s.os := rfl
@[simp] theorem State.setCs_cs (s : State) (l : List Word) : (s.setCs l).cs = l := rfl
@[simp] theorem State.setCs_status (s : State) (l : List Word) : (s.setCs l).status = s.status := rfl
@[simp] theorem State.setCs_input (s : State) (l : List Word) : (s.setCs l).input = s.input := rfl
@[simp] theorem State.setCs_taken (s : State) (l : List Word) : (s.setCs l).taken = s.taken := rfl
@[simp] theorem State.setCs_output (s : State) (l : List Word) : (s.setCs l).output = s.output := rfl
@[simp] theorem State.setCs_pendingStarts (s : State) (l : List Word) :
    (s.setCs l).pendingStarts = s.pendingStarts := rfl
@[simp] theorem State.setCs_draws (s : State) (l : List Word) : (s.setCs l).draws = s.draws := rfl

@[simp] theorem State.setReg_params (s : State) (i : RegName) (v : Word) : (s.setReg i v).params = s.params := rfl
@[simp] theorem State.setReg_prog (s : State) (i : RegName) (v : Word) : (s.setReg i v).prog = s.prog := rfl
@[simp] theorem State.setReg_ip (s : State) (i : RegName) (v : Word) : (s.setReg i v).ip = s.ip := rfl
@[simp] theorem State.setReg_regs (s : State) (i : RegName) (v : Word) : (s.setReg i v).regs = s.regs.set i v := rfl
@[simp] theorem State.setReg_os (s : State) (i : RegName) (v : Word) : (s.setReg i v).os = s.os := rfl
@[simp] theorem State.setReg_cs (s : State) (i : RegName) (v : Word) : (s.setReg i v).cs = s.cs := rfl
@[simp] theorem State.setReg_status (s : State) (i : RegName) (v : Word) : (s.setReg i v).status = s.status := rfl
@[simp] theorem State.setReg_input (s : State) (i : RegName) (v : Word) : (s.setReg i v).input = s.input := rfl
@[simp] theorem State.setReg_taken (s : State) (i : RegName) (v : Word) : (s.setReg i v).taken = s.taken := rfl
@[simp] theorem State.setReg_output (s : State) (i : RegName) (v : Word) : (s.setReg i v).output = s.output := rfl
@[simp] theorem State.setReg_pendingStarts (s : State) (i : RegName) (v : Word) :
    (s.setReg i v).pendingStarts = s.pendingStarts := rfl
@[simp] theorem State.setReg_draws (s : State) (i : RegName) (v : Word) : (s.setReg i v).draws = s.draws := rfl

@[simp] theorem State.emitOut_params (s : State) (v : Word) : (s.emitOut v).params = s.params := rfl
@[simp] theorem State.emitOut_prog (s : State) (v : Word) : (s.emitOut v).prog = s.prog := rfl
@[simp] theorem State.emitOut_ip (s : State) (v : Word) : (s.emitOut v).ip = s.ip := rfl
@[simp] theorem State.emitOut_regs (s : State) (v : Word) : (s.emitOut v).regs = s.regs := rfl
@[simp] theorem State.emitOut_os (s : State) (v : Word) : (s.emitOut v).os = s.os := rfl
@[simp] theorem State.emitOut_cs (s : State) (v : Word) : (s.emitOut v).cs = s.cs := rfl
@[simp] theorem State.emitOut_status (s : State) (v : Word) : (s.emitOut v).status = s.status := rfl
@[simp] theorem State.emitOut_input (s : State) (v : Word) : (s.emitOut v).input = s.input := rfl
@[simp] theorem State.emitOut_taken (s : State) (v : Word) : (s.emitOut v).taken = s.taken := rfl
@[simp] theorem State.emitOut_output (s : State) (v : Word) : (s.emitOut v).output = s.output ++ [v] := rfl
@[simp] theorem State.emitOut_pendingStarts (s : State) (v : Word) :
    (s.emitOut v).pendingStarts = s.pendingStarts := rfl
@[simp] theorem State.emitOut_draws (s : State) (v : Word) : (s.emitOut v).draws = s.draws := rfl

@[simp] theorem State.halt_params (s : State) : (s.halt).params = s.params := rfl
@[simp] theorem State.halt_prog (s : State) : (s.halt).prog = s.prog := rfl
@[simp] theorem State.halt_ip (s : State) : (s.halt).ip = s.ip := rfl
@[simp] theorem State.halt_regs (s : State) : (s.halt).regs = s.regs := rfl
@[simp] theorem State.halt_os (s : State) : (s.halt).os = s.os := rfl
@[simp] theorem State.halt_cs (s : State) : (s.halt).cs = s.cs := rfl
@[simp] theorem State.halt_status (s : State) : (s.halt).status = .halted := rfl
@[simp] theorem State.halt_input (s : State) : (s.halt).input = s.input := rfl
@[simp] theorem State.halt_taken (s : State) : (s.halt).taken = s.taken := rfl
@[simp] theorem State.halt_output (s : State) : (s.halt).output = s.output := rfl
@[simp] theorem State.halt_pendingStarts (s : State) : (s.halt).pendingStarts = s.pendingStarts := rfl
@[simp] theorem State.halt_draws (s : State) : (s.halt).draws = s.draws := rfl

@[simp] theorem State.unspecified_params (s : State) : (s.unspecified).params = s.params := rfl
@[simp] theorem State.unspecified_prog (s : State) : (s.unspecified).prog = s.prog := rfl
@[simp] theorem State.unspecified_ip (s : State) : (s.unspecified).ip = Config.freeWord s.draws := rfl
@[simp] theorem State.unspecified_regs (s : State) :
    (s.unspecified).regs =
      { rax := Config.freeWord (s.draws + 1), rbx := Config.freeWord (s.draws + 2),
        rcx := Config.freeWord (s.draws + 3), rdx := Config.freeWord (s.draws + 4) } := rfl
@[simp] theorem State.unspecified_os (s : State) :
    (s.unspecified).os = (Config.freeStack s.draws).take s.params.opstackCap := rfl
@[simp] theorem State.unspecified_cs (s : State) :
    (s.unspecified).cs = (Config.freeStack (s.draws + 1)).take s.params.callstackCap := rfl
@[simp] theorem State.unspecified_status (s : State) : (s.unspecified).status = s.status := rfl
@[simp] theorem State.unspecified_input (s : State) : (s.unspecified).input = s.input := rfl
@[simp] theorem State.unspecified_taken (s : State) : (s.unspecified).taken = s.taken := rfl
@[simp] theorem State.unspecified_output (s : State) : (s.unspecified).output = s.output := rfl
@[simp] theorem State.unspecified_pendingStarts (s : State) : (s.unspecified).pendingStarts = s.pendingStarts := rfl
@[simp] theorem State.unspecified_draws (s : State) : (s.unspecified).draws = s.draws + 5 := rfl

@[simp] theorem State.raised_params (s : State) (k : ErrorKind) : (s.raised k).params = s.params := rfl
@[simp] theorem State.raised_prog (s : State) (k : ErrorKind) : (s.raised k).prog = s.prog := rfl
@[simp] theorem State.raised_ip (s : State) (k : ErrorKind) : (s.raised k).ip = Config.freeWord s.draws := rfl
@[simp] theorem State.raised_regs (s : State) (k : ErrorKind) :
    (s.raised k).regs =
      { rax := Config.freeWord (s.draws + 1), rbx := Config.freeWord (s.draws + 2),
        rcx := Config.freeWord (s.draws + 3), rdx := Config.freeWord (s.draws + 4) } := rfl
@[simp] theorem State.raised_os (s : State) (k : ErrorKind) :
    (s.raised k).os = (Config.freeStack s.draws).take s.params.opstackCap := rfl
@[simp] theorem State.raised_cs (s : State) (k : ErrorKind) :
    (s.raised k).cs = (Config.freeStack (s.draws + 1)).take s.params.callstackCap := rfl
@[simp] theorem State.raised_status (s : State) (k : ErrorKind) : (s.raised k).status = .error k := rfl
@[simp] theorem State.raised_input (s : State) (k : ErrorKind) : (s.raised k).input = s.input := rfl
@[simp] theorem State.raised_taken (s : State) (k : ErrorKind) : (s.raised k).taken = s.taken := rfl
@[simp] theorem State.raised_output (s : State) (k : ErrorKind) : (s.raised k).output = s.output := rfl
@[simp] theorem State.raised_pendingStarts (s : State) (k : ErrorKind) :
    (s.raised k).pendingStarts = s.pendingStarts := rfl
@[simp] theorem State.raised_draws (s : State) (k : ErrorKind) : (s.raised k).draws = s.draws + 5 := rfl

@[simp] theorem State.refuse_params (s : State) : (s.refuse).params = s.params := rfl
@[simp] theorem State.refuse_prog (s : State) : (s.refuse).prog = s.prog := rfl
@[simp] theorem State.refuse_ip (s : State) : (s.refuse).ip = Config.freeWord s.draws := rfl
@[simp] theorem State.refuse_regs (s : State) :
    (s.refuse).regs =
      { rax := Config.freeWord (s.draws + 1), rbx := Config.freeWord (s.draws + 2),
        rcx := Config.freeWord (s.draws + 3), rdx := Config.freeWord (s.draws + 4) } := rfl
@[simp] theorem State.refuse_os (s : State) :
    (s.refuse).os = (Config.freeStack s.draws).take s.params.opstackCap := rfl
@[simp] theorem State.refuse_cs (s : State) :
    (s.refuse).cs = (Config.freeStack (s.draws + 1)).take s.params.callstackCap := rfl
@[simp] theorem State.refuse_status (s : State) : (s.refuse).status = .refused := rfl
@[simp] theorem State.refuse_input (s : State) : (s.refuse).input = s.input := rfl
@[simp] theorem State.refuse_taken (s : State) : (s.refuse).taken = s.taken := rfl
@[simp] theorem State.refuse_output (s : State) : (s.refuse).output = s.output := rfl
@[simp] theorem State.refuse_pendingStarts (s : State) : (s.refuse).pendingStarts = s.pendingStarts := rfl
@[simp] theorem State.refuse_draws (s : State) : (s.refuse).draws = s.draws + 5 := rfl

@[simp] theorem State.requestStart_params (s : State) (img : Image) : (s.requestStart img).params = s.params := rfl
@[simp] theorem State.requestStart_prog (s : State) (img : Image) : (s.requestStart img).prog = s.prog := rfl
@[simp] theorem State.requestStart_ip (s : State) (img : Image) : (s.requestStart img).ip = s.ip := rfl
@[simp] theorem State.requestStart_regs (s : State) (img : Image) : (s.requestStart img).regs = s.regs := rfl
@[simp] theorem State.requestStart_os (s : State) (img : Image) : (s.requestStart img).os = s.os := rfl
@[simp] theorem State.requestStart_cs (s : State) (img : Image) : (s.requestStart img).cs = s.cs := rfl
@[simp] theorem State.requestStart_status (s : State) (img : Image) : (s.requestStart img).status = s.status := rfl
@[simp] theorem State.requestStart_input (s : State) (img : Image) : (s.requestStart img).input = s.input := rfl
@[simp] theorem State.requestStart_taken (s : State) (img : Image) : (s.requestStart img).taken = s.taken := rfl
@[simp] theorem State.requestStart_output (s : State) (img : Image) : (s.requestStart img).output = s.output := rfl
@[simp] theorem State.requestStart_pendingStarts (s : State) (img : Image) :
    (s.requestStart img).pendingStarts = s.pendingStarts ++ [img] := rfl
@[simp] theorem State.requestStart_draws (s : State) (img : Image) : (s.requestStart img).draws = s.draws := rfl

@[simp] theorem State.supplyInput_params (s : State) (v : Word) : (s.supplyInput v).params = s.params := rfl
@[simp] theorem State.supplyInput_prog (s : State) (v : Word) : (s.supplyInput v).prog = s.prog := rfl
@[simp] theorem State.supplyInput_ip (s : State) (v : Word) : (s.supplyInput v).ip = s.ip := rfl
@[simp] theorem State.supplyInput_regs (s : State) (v : Word) : (s.supplyInput v).regs = s.regs := rfl
@[simp] theorem State.supplyInput_os (s : State) (v : Word) : (s.supplyInput v).os = s.os := rfl
@[simp] theorem State.supplyInput_cs (s : State) (v : Word) : (s.supplyInput v).cs = s.cs := rfl
@[simp] theorem State.supplyInput_status (s : State) (v : Word) : (s.supplyInput v).status = s.status := rfl
@[simp] theorem State.supplyInput_input (s : State) (v : Word) : (s.supplyInput v).input = s.input ++ [v] := rfl
@[simp] theorem State.supplyInput_taken (s : State) (v : Word) : (s.supplyInput v).taken = s.taken := rfl
@[simp] theorem State.supplyInput_output (s : State) (v : Word) : (s.supplyInput v).output = s.output := rfl
@[simp] theorem State.supplyInput_pendingStarts (s : State) (v : Word) :
    (s.supplyInput v).pendingStarts = s.pendingStarts := rfl
@[simp] theorem State.supplyInput_draws (s : State) (v : Word) : (s.supplyInput v).draws = s.draws := rfl

/-! ### The instruction pointer after an instruction, and the target of a displacement -/

@[simp] theorem State.nextIp_F0 (s : State) : s.nextIp .F0 = s.ip + 1 := rfl

@[simp] theorem State.nextIp_FR (s : State) : s.nextIp .FR = s.ip + 2 := rfl

@[simp] theorem State.nextIp_FL (s : State) : s.nextIp .FL = s.ip + 9 := rfl

@[simp] theorem State.nextIp_FD (s : State) : s.nextIp .FD = s.ip + 9 := rfl

theorem State.target_eq (s : State) (disp : Word) : s.target disp = s.ip + 9 + disp := rfl

/-! ### The register file -/

@[simp] theorem Regs.get_set_same (r : Regs) (i : RegName) (v : Word) : (r.set i v).get i = v := by cases i <;> rfl

theorem Regs.get_set_other (r : Regs) {i j : RegName} (h : j ≠ i) (v : Word) : (r.set i v).get j = r.get j := by
  cases i <;> cases j <;> first | rfl | exact absurd rfl h

/-! ### The start-of-run fields (R301, R35) -/

theorem State.start_accepted (s : State) (img : Image) (h : img.headerAccepted s.params = true) :
    State.start img s =
      { s with
        prog := img, taken := 0, output := [], ip := 8
        regs :=
          { rax := s.params.resetNan, rbx := s.params.resetNan, rcx := s.params.resetNan, rdx := s.params.resetNan }
        os := [], cs := [], status := .running } := by
  simp [State.start, h, headerLen]

theorem State.start_rejected (s : State) (img : Image) (h : img.headerAccepted s.params = false) :
    State.start img s = State.raised .headerMismatch { s with prog := img, taken := 0, output := [] } := by
  simp [State.start, h]

@[simp] theorem State.start_params (s : State) (img : Image) : (State.start img s).params = s.params := by
  unfold State.start; split <;> rfl

@[simp] theorem State.start_prog (s : State) (img : Image) : (State.start img s).prog = img := by
  unfold State.start; split <;> rfl

@[simp] theorem State.start_input (s : State) (img : Image) : (State.start img s).input = s.input := by
  unfold State.start; split <;> rfl

@[simp] theorem State.start_taken (s : State) (img : Image) : (State.start img s).taken = 0 := by
  unfold State.start; split <;> rfl

@[simp] theorem State.start_output (s : State) (img : Image) : (State.start img s).output = [] := by
  unfold State.start; split <;> rfl

@[simp] theorem State.start_pendingStarts (s : State) (img : Image) :
    (State.start img s).pendingStarts = s.pendingStarts := by
  unfold State.start; split <;> rfl

end Sys2Proof.Machine
end

