-- ==== Sys2Proof/Laws/Ops.lean ====
section
/-! SUPPORT. One lemma for each shared operation: everything it can answer. Proofs about instructions cite these and do not
unfold the operations. -/

namespace Sys2Proof.Machine

@[simp] theorem next_inj {s t : State} : ((Host.Outcome.next s : Result) = .next t) ↔ s = t :=
  ⟨fun h => by cases h; rfl, fun h => by rw [h]⟩

/-! ### Errors -/

@[simp] theorem raise_eq_next {k : ErrorKind} {s t : State} : raise k s = .next t ↔ t = s.raised k := by
  simp [raise, eq_comm]

theorem errsWith_raise (k : ErrorKind) (s : State) : ErrsWith k s (raise k s) :=
  ⟨s.raised k, rfl, rfl, rfl, rfl, rfl, rfl, rfl, rfl⟩

/-- An error is raised from a state with the same parameters, buffer, inputs and outputs. -/
theorem errsWith_raise_of_eq {k : ErrorKind} {s s' : State} (ho : s'.output = s.output) (hi : s'.input = s.input)
    (ht : s'.taken = s.taken) (hp : s'.prog = s.prog) (hq : s'.params = s.params)
    (hs : s'.pendingStarts = s.pendingStarts) : ErrsWith k s (raise k s') :=
  ⟨s'.raised k, rfl, rfl, ho, hi, ht, hp, hq, hs⟩

/-- The stacks keep their bounds after an error (R30, R31). -/
theorem State.unspecified_bounds (s : State) :
    s.unspecified.os.length ≤ s.params.opstackCap ∧ s.unspecified.cs.length ≤ s.params.callstackCap := by
  simp only [State.unspecified_os, State.unspecified_cs, List.length_take]
  omega

/-! ### The stacks -/

theorem pushOs_full {v : Word} {s : State} (h : s.os.length = s.params.opstackCap) (next : State → Result) :
    pushOs v s next = raise .outOfMemory s := by
  simp [pushOs, h]

theorem pushOs_room {v : Word} {s : State} (h : s.os.length ≠ s.params.opstackCap) (next : State → Result) :
    pushOs v s next = next (s.setOs (v :: s.os)) := by
  simp [pushOs, h]

theorem pushOs_eq_next {v : Word} {s t : State} {next : State → Result} :
    pushOs v s next = .next t ↔
      (s.os.length = s.params.opstackCap ∧ t = s.raised .outOfMemory) ∨
      (s.os.length ≠ s.params.opstackCap ∧ next (s.setOs (v :: s.os)) = .next t) := by
  unfold pushOs; split <;> simp_all

theorem popOs_nil {s : State} (h : s.os = []) (next : Word → State → Result) :
    popOs s next = raise .popFromEmptyStack s := by
  simp [popOs, h]

theorem popOs_cons {s : State} {v : Word} {rest : List Word} (h : s.os = v :: rest) (next : Word → State → Result) :
    popOs s next = next v (s.setOs rest) := by
  simp [popOs, h]

theorem popOs_eq_next {s t : State} {next : Word → State → Result} :
    popOs s next = .next t ↔
      (s.os = [] ∧ t = s.raised .popFromEmptyStack) ∨
      ∃ v rest, s.os = v :: rest ∧ next v (s.setOs rest) = .next t := by
  unfold popOs; split <;> simp_all

theorem unaryOp_cons {f : Word → Word} {s : State} {x : Word} {rest : List Word} (h : s.os = x :: rest) :
    unaryOp f s = .next ((s.setOs (f x :: rest)).advance .F0) := by
  simp [unaryOp, h]

theorem unaryOp_few {f : Word → Word} {s : State} (h : s.os.length < 1) : unaryOp f s = raise .notEnoughArgs s := by
  have : s.os = [] := List.length_eq_zero_iff.1 (by omega)
  simp [unaryOp, this]

theorem unaryOp_eq_next {f : Word → Word} {s t : State} :
    unaryOp f s = .next t ↔
      (s.os = [] ∧ t = s.raised .notEnoughArgs) ∨
      ∃ x rest, s.os = x :: rest ∧ t = (s.setOs (f x :: rest)).advance .F0 := by
  match ho : s.os with
  | [] => rw [unaryOp_few (by simp [ho]), raise_eq_next]; simp
  | x :: rest =>
    rw [unaryOp_cons ho, next_inj]
    simp only [reduceCtorEq, false_and, List.cons.injEq, false_or]
    exact ⟨fun h => ⟨x, rest, ⟨rfl, rfl⟩, h.symm⟩, fun ⟨_, _, ⟨hx, hr⟩, h⟩ => by rw [h, hx, hr]⟩

theorem binaryOp_cons {f : Word → Word → Word} {s : State} {a b : Word} {rest : List Word}
    (h : s.os = b :: a :: rest) : binaryOp f s = .next ((s.setOs (f a b :: rest)).advance .F0) := by
  simp [binaryOp, h]

theorem binaryOp_few {f : Word → Word → Word} {s : State} (h : s.os.length < 2) :
    binaryOp f s = raise .notEnoughArgs s := by
  unfold binaryOp
  split
  · next h' => simp [h'] at h
  · rfl
  · rfl

theorem binaryOp_eq_next {f : Word → Word → Word} {s t : State} :
    binaryOp f s = .next t ↔
      (s.os.length < 2 ∧ t = s.raised .notEnoughArgs) ∨
      ∃ a b rest, s.os = b :: a :: rest ∧ t = (s.setOs (f a b :: rest)).advance .F0 := by
  by_cases h : s.os.length < 2
  · rw [binaryOp_few h, raise_eq_next]
    refine ⟨fun ht => .inl ⟨h, ht⟩, ?_⟩
    rintro (⟨-, ht⟩ | ⟨a, b, rest, ho, -⟩)
    · exact ht
    · simp [ho] at h
  · match ho : s.os, h with
    | b :: a :: rest, _ =>
      rw [binaryOp_cons ho, next_inj]
      refine ⟨fun ht => .inr ⟨a, b, rest, rfl, ht.symm⟩, ?_⟩
      rintro (⟨hlt, -⟩ | ⟨a', b', rest', he, rfl⟩)
      · simp at hlt
      · cases he; rfl
    | [_], h => simp at h
    | [], h => simp at h

theorem pushCs_full {r : Word} {s : State} (h : s.cs.length = s.params.callstackCap) (next : State → Result) :
    pushCs r s next = raise .outOfMemory s := by
  simp [pushCs, h]

theorem pushCs_room {r : Word} {s : State} (h : s.cs.length ≠ s.params.callstackCap) (next : State → Result) :
    pushCs r s next = next (s.setCs (r :: s.cs)) := by
  simp [pushCs, h]

theorem pushCs_eq_next {r : Word} {s t : State} {next : State → Result} :
    pushCs r s next = .next t ↔
      (s.cs.length = s.params.callstackCap ∧ t = s.raised .outOfMemory) ∨
      (s.cs.length ≠ s.params.callstackCap ∧ next (s.setCs (r :: s.cs)) = .next t) := by
  unfold pushCs; split <;> simp_all

theorem popCs_eq_next {s t : State} {next : Word → State → Result} :
    popCs s next = .next t ↔
      (s.cs = [] ∧ t = s.raised .retWithoutCall) ∨
      ∃ r rest, s.cs = r :: rest ∧ next r (s.setCs rest) = .next t := by
  unfold popCs; split <;> simp_all

theorem popCs_cons {s : State} {r : Word} {rest : List Word} (h : s.cs = r :: rest) (next : Word → State → Result) :
    popCs s next = next r (s.setCs rest) := by
  simp [popCs, h]

/-! ### Registers and targets -/

/-- Exactly the register bytes 0 to 3 select a register (R74). -/
theorem regName_eq_none {reg : Byte} : regName reg = none ↔ ¬ RegByteOk reg := by
  unfold regName
  split <;> simp_all [RegByteOk]
  omega

theorem regName_isSome {reg : Byte} (h : RegByteOk reg) : ∃ i, regName reg = some i := by
  cases hr : regName reg with
  | none => exact absurd h (regName_eq_none.1 hr)
  | some i => exact ⟨i, rfl⟩

theorem withReg_some {reg : Byte} {i : RegName} (h : regName reg = some i) (s : State) (next : RegName → Result) :
    withReg reg s next = next i := by
  simp [withReg, h]

theorem withReg_none {reg : Byte} (h : ¬ RegByteOk reg) (s : State) (next : RegName → Result) :
    withReg reg s next = raise .unknownRegister s := by
  simp [withReg, regName_eq_none.2 h]

theorem withReg_eq_next {reg : Byte} {s t : State} {next : RegName → Result} :
    withReg reg s next = .next t ↔
      (regName reg = none ∧ t = s.raised .unknownRegister) ∨ ∃ i, regName reg = some i ∧ next i = .next t := by
  unfold withReg; split <;> simp_all

/-- `check_target` as R201 writes it. -/
theorem State.targetOk_iff {s : State} {t : Word} :
    s.targetOk t = true ↔
      ¬ s.prog.len.toNat ≤ t.toNat ∧ ¬ (t.toNat < headerLen ∧ s.params.headerPolicy = .fault) := by
  cases hp : s.params.headerPolicy <;> simp [State.targetOk, hp]

theorem State.targetOk_iff_inBounds {s : State} {t : Word} : s.targetOk t = true ↔ s.InBounds t := by
  rw [State.targetOk_iff]
  unfold State.InBounds headerLen
  cases s.params.headerPolicy <;> simp

theorem State.targetOk_eq_false {s : State} {t : Word} : s.targetOk t = false ↔ ¬ s.InBounds t := by
  rw [← State.targetOk_iff_inBounds, Bool.not_eq_true]

theorem jumpTo_inBounds {s : State} {t : Word} (h : s.InBounds t) : jumpTo t s = .next (s.setIp t) := by
  rw [jumpTo, checkTarget, if_pos (State.targetOk_iff_inBounds.2 h)]

theorem jumpTo_outOfBounds {s : State} {t : Word} (h : ¬ s.InBounds t) : jumpTo t s = raise .badJumpAddress s := by
  rw [jumpTo, checkTarget, if_neg (fun h' => h (State.targetOk_iff_inBounds.1 h'))]

theorem checkTarget_eq_next {d : Word} {s t : State} {next : Result} :
    checkTarget d s next = .next t ↔
      (s.targetOk d = false ∧ t = s.raised .badJumpAddress) ∨ (s.targetOk d = true ∧ next = .next t) := by
  unfold checkTarget; split <;> simp_all

theorem jumpTo_eq_next {d : Word} {s t : State} :
    jumpTo d s = .next t ↔
      (s.targetOk d = false ∧ t = s.raised .badJumpAddress) ∨ (s.targetOk d = true ∧ t = s.setIp d) := by
  rw [jumpTo, checkTarget_eq_next, next_inj]
  exact or_congr Iff.rfl (and_congr Iff.rfl ⟨Eq.symm, Eq.symm⟩)

/-! ### Ports -/

theorem takeIn_eq_next {s t : State} {next : Word → State → Result} :
    takeIn s next = .next t ↔
      (s.input = [] ∧ t = s) ∨
      ∃ v rest, s.input = v :: rest ∧ next v { s with input := rest, taken := s.taken + 1 } = .next t := by
  unfold takeIn
  split
  · next h => simp only [next_inj, h]; simp [eq_comm (a := s)]
  · next v rest h =>
    simp only [h, reduceCtorEq, false_and, List.cons.injEq, false_or]
    exact ⟨fun hn => ⟨v, rest, ⟨rfl, rfl⟩, hn⟩, fun ⟨_, _, ⟨hv, hr⟩, hn⟩ => by rw [hv, hr]; exact hn⟩

/-! ### A machine that is not running -/

theorem State.stopped_eq_next {s t : State} :
    s.stopped = .next t ↔
      (∃ img rest, s.pendingStarts = img :: rest ∧ t = State.start img { s with pendingStarts := rest }) ∨
      (s.pendingStarts = [] ∧ s.status ≠ .refused ∧ t = s) := by
  unfold State.stopped
  split
  · next img rest h =>
    simp only [next_inj, h, List.cons.injEq, reduceCtorEq, false_and, or_false]
    exact ⟨fun hn => ⟨img, rest, ⟨rfl, rfl⟩, hn.symm⟩, fun ⟨_, _, ⟨hi, hr⟩, hn⟩ => by rw [hn, hi, hr]⟩
  · next h =>
    split
    · next hr => simp [h, hr]
    · next hr => simp [h, hr, eq_comm (a := s)]

theorem State.stopped_eq_refused {s : State} {r : Refusal} :
    s.stopped = .refused r ↔ s.pendingStarts = [] ∧ s.status = .refused ∧ r = .unnamedOpcode := by
  unfold State.stopped
  split
  · next h => simp [h]
  · next h =>
    split
    · next hr => simp [h, hr, eq_comm (a := r)]
    · next hr => simp [h, hr]

end Sys2Proof.Machine
end

