-- ==== Sys2Proof/Laws/Exec.lean ====
section
/-! SUPPORT. Everything the instructions built from several operations can answer, one lemma an instruction. -/

namespace Sys2Proof.Machine

theorem execIn_eq_next {s t : State} :
    execIn s = .next t ↔
      (s.input = [] ∧ t = s) ∨
      ∃ v rest, s.input = v :: rest ∧
        ((s.os.length = s.params.opstackCap ∧
            t = State.raised .outOfMemory { s with input := rest, taken := s.taken + 1 }) ∨
          (s.os.length ≠ s.params.opstackCap ∧
            t = { s with input := rest, taken := s.taken + 1, os := v :: s.os, ip := s.nextIp .F0 })) := by
  simp only [execIn, takeIn_eq_next, pushOs_eq_next, next_inj]
  refine or_congr Iff.rfl (exists_congr fun v => exists_congr fun rest => and_congr Iff.rfl ?_)
  exact or_congr Iff.rfl (and_congr Iff.rfl ⟨Eq.symm, Eq.symm⟩)

theorem execOut_eq_next {s t : State} :
    execOut s = .next t ↔
      (s.os = [] ∧ t = s.raised .popFromEmptyStack) ∨
      ∃ v rest, s.os = v :: rest ∧ t = { s with os := rest, output := s.output ++ [v], ip := s.nextIp .F0 } := by
  simp only [execOut, popOs_eq_next, next_inj]
  exact or_congr Iff.rfl (exists_congr fun v => exists_congr fun rest => and_congr Iff.rfl ⟨Eq.symm, Eq.symm⟩)

theorem execPop_eq_next {s t : State} :
    execPop s = .next t ↔
      (s.os = [] ∧ t = s.raised .popFromEmptyStack) ∨
      ∃ v rest, s.os = v :: rest ∧ t = { s with os := rest, ip := s.nextIp .F0 } := by
  simp only [execPop, popOs_eq_next, next_inj]
  exact or_congr Iff.rfl (exists_congr fun v => exists_congr fun rest => and_congr Iff.rfl ⟨Eq.symm, Eq.symm⟩)

theorem execPopReg_eq_next {reg : Byte} {s t : State} :
    execPopReg reg s = .next t ↔
      (regName reg = none ∧ t = s.raised .unknownRegister) ∨
      ∃ i, regName reg = some i ∧
        ((s.os = [] ∧ t = s.raised .popFromEmptyStack) ∨
          ∃ v rest, s.os = v :: rest ∧ t = { s with os := rest, regs := s.regs.set i v, ip := s.nextIp .FR }) := by
  simp only [execPopReg, withReg_eq_next, popOs_eq_next, next_inj]
  refine or_congr Iff.rfl (exists_congr fun i => and_congr Iff.rfl (or_congr Iff.rfl ?_))
  exact exists_congr fun v => exists_congr fun rest => and_congr Iff.rfl ⟨Eq.symm, Eq.symm⟩

theorem execPushVal_eq_next {imm : Word} {s t : State} :
    execPushVal imm s = .next t ↔
      (s.os.length = s.params.opstackCap ∧ t = s.raised .outOfMemory) ∨
      (s.os.length ≠ s.params.opstackCap ∧ t = { s with os := imm :: s.os, ip := s.nextIp .FL }) := by
  simp only [execPushVal, pushOs_eq_next, next_inj]
  exact or_congr Iff.rfl (and_congr Iff.rfl ⟨Eq.symm, Eq.symm⟩)

theorem execPushReg_eq_next {reg : Byte} {s t : State} :
    execPushReg reg s = .next t ↔
      (regName reg = none ∧ t = s.raised .unknownRegister) ∨
      ∃ i, regName reg = some i ∧
        ((s.os.length = s.params.opstackCap ∧ t = s.raised .outOfMemory) ∨
          (s.os.length ≠ s.params.opstackCap ∧ t = { s with os := s.regs.get i :: s.os, ip := s.nextIp .FR })) := by
  simp only [execPushReg, withReg_eq_next, pushOs_eq_next, next_inj]
  refine or_congr Iff.rfl (exists_congr fun i => and_congr Iff.rfl (or_congr Iff.rfl ?_))
  exact and_congr Iff.rfl ⟨Eq.symm, Eq.symm⟩

theorem execCall_eq_next {disp : Word} {s t : State} :
    execCall disp s = .next t ↔
      (s.cs.length = s.params.callstackCap ∧ t = s.raised .outOfMemory) ∨
      (s.cs.length ≠ s.params.callstackCap ∧
        ((s.targetOk (s.target disp) = false ∧
            t = State.raised .badJumpAddress (s.setCs (s.nextIp .FD :: s.cs))) ∨
          (s.targetOk (s.target disp) = true ∧
            t = { s with cs := s.nextIp .FD :: s.cs, ip := s.target disp }))) := by
  simp only [execCall, pushCs_eq_next, jumpTo_eq_next]
  rfl

theorem execRet_eq_next {s t : State} :
    execRet s = .next t ↔
      (s.cs = [] ∧ t = s.raised .retWithoutCall) ∨
      ∃ r rest, s.cs = r :: rest ∧ t = { s with cs := rest, ip := r } := by
  simp only [execRet, popCs_eq_next, next_inj]
  exact or_congr Iff.rfl (exists_congr fun r => exists_congr fun rest => and_congr Iff.rfl ⟨Eq.symm, Eq.symm⟩)

theorem execJif_eq_next {disp : Word} {s t : State} :
    execJif disp s = .next t ↔
      (s.os = [] ∧ t = s.raised .popFromEmptyStack) ∨
      ∃ v rest, s.os = v :: rest ∧
        ((s.targetOk (s.target disp) = false ∧ (pos v = true ∨ s.params.jifUntakenCheck = true) ∧
            t = State.raised .badJumpAddress (s.setOs rest)) ∨
          (s.targetOk (s.target disp) = true ∧ pos v = true ∧ t = { s with os := rest, ip := s.target disp }) ∨
          ((s.targetOk (s.target disp) = true ∨ s.params.jifUntakenCheck = false) ∧ pos v = false ∧
            t = { s with os := rest, ip := s.nextIp .FD })) := by
  simp only [execJif, popOs_eq_next]
  refine or_congr Iff.rfl (exists_congr fun v => exists_congr fun rest => and_congr Iff.rfl ?_)
  have h1 : (s.setOs rest).targetOk ((s.setOs rest).target disp) = s.targetOk (s.target disp) := rfl
  by_cases hp : pos v = true
  · simp only [hp, if_true, jumpTo_eq_next, h1, true_or, true_and, Bool.true_eq_false, false_and, and_false, or_false]
    rfl
  · have hp' : pos v = false := by simpa using hp
    by_cases hj : s.params.jifUntakenCheck = true
    · have hj' : (s.setOs rest).params.jifUntakenCheck = true := hj
      simp only [hp', hj, hj', Bool.false_eq_true, if_false, if_true, checkTarget_eq_next, h1, next_inj, false_or, or_true,
        true_and, false_and, and_false, Bool.true_eq_false, or_false]
      exact or_congr Iff.rfl (and_congr Iff.rfl ⟨Eq.symm, Eq.symm⟩)
    · have hj' : s.params.jifUntakenCheck = false := by simpa using hj
      have hj'' : (s.setOs rest).params.jifUntakenCheck = false := hj'
      simp only [hp', hj', hj'', Bool.false_eq_true, if_false, next_inj, false_and, and_false, or_true, true_and,
        or_self, false_or]
      exact ⟨Eq.symm, Eq.symm⟩

end Sys2Proof.Machine
end

