-- ==== Sys2Proof/Laws/Float.lean ====
section
/-! SUPPORT. The laws of binary64 arithmetic: the parts of a pattern, the order of sizes, and that the one rounding gives a
nearest pattern, an even one on a tie, and infinity exactly past the largest finite number. -/

namespace Sys2Proof.Machine.F64

/-! ### Parts of a pattern -/

theorem mag_lt (w : Word) : mag w < 2 ^ 63 := Nat.mod_lt _ (by decide)

theorem mag_pack (negative : Bool) {m : Nat} (h : m < 2 ^ 63) : mag (pack negative m) = m := by
  cases negative <;> simp [mag, pack] <;> omega

theorem sign_pack (negative : Bool) {m : Nat} (h : m < 2 ^ 63) : sign (pack negative m) = negative := by
  rw [sign, BitVec.msb_eq_decide]
  cases negative <;> simp [pack] <;> omega

/-- A pattern is its sign and its magnitude. -/
theorem pack_sign_mag (w : Word) : pack (sign w) (mag w) = w := by
  apply BitVec.eq_of_toNat_eq
  have hw := w.isLt
  rw [sign, BitVec.msb_eq_decide]
  by_cases h : 2 ^ (64 - 1) ≤ w.toNat
  · simp only [h, decide_true, pack, mag, if_true, BitVec.toNat_ofNat]; omega
  · simp only [h, decide_false, pack, mag, BitVec.toNat_ofNat, Bool.false_eq_true, if_false]; omega

theorem mag_negate (w : Word) : mag (negate w) = mag w := by
  rw [mag, negate, BitVec.toNat_xor, Nat.xor_mod_two_pow]
  exact Nat.xor_zero _

theorem sign_negate (w : Word) : sign (negate w) = !sign w := by
  rw [sign, negate, BitVec.msb_xor]
  exact Bool.xor_true _

/-! ### Sizes -/

theorem mag_eq_scale_significand (m : Nat) : m = scale m * 2 ^ 52 + significand m := by
  unfold scale significand; split <;> omega

theorem significand_lt (m : Nat) : significand m < 2 ^ 53 := by
  unfold significand; split <;> omega

theorem significand_ge {m : Nat} (h : scale m ≠ 0) : 2 ^ 52 ≤ significand m := by
  unfold scale at h; unfold significand; split <;> omega

/-- The size of a pattern put together from a scale and a significand, a carried significand of 2^53 included. -/
theorem units_of_parts (k n : Nat) (hn : n ≤ 2 ^ 53) (hk : k = 0 ∨ 2 ^ 52 ≤ n) :
    units (k * 2 ^ 52 + n) = n * 2 ^ k := by
  rcases Nat.lt_or_ge n (2 ^ 53) with hlt | hge
  · rcases Nat.lt_or_ge n (2 ^ 52) with hsub | hnorm
    · have hk0 : k = 0 := by omega
      subst hk0
      have hs : significand (0 * 2 ^ 52 + n) = n := by unfold significand; split <;> omega
      have hc : scale (0 * 2 ^ 52 + n) = 0 := by unfold scale; omega
      rw [units, hs, hc]
    · have hs : significand (k * 2 ^ 52 + n) = n := by unfold significand; split <;> omega
      have hc : scale (k * 2 ^ 52 + n) = k := by unfold scale; omega
      rw [units, hs, hc]
  · have hn' : n = 2 ^ 53 := by omega
    have hs : significand (k * 2 ^ 52 + n) = 2 ^ 52 := by unfold significand; split <;> omega
    have hc : scale (k * 2 ^ 52 + n) = k + 1 := by unfold scale; omega
    rw [units, hs, hc, hn', pow_succ]
    ring

/-- A larger pattern has a larger size. -/
theorem units_strictMono {m n : Nat} (h : m < n) : units m < units n := by
  have hm := mag_eq_scale_significand m
  have hn := mag_eq_scale_significand n
  have hml := significand_lt m
  have hnl := significand_lt n
  unfold units
  rcases Nat.lt_trichotomy (scale m) (scale n) with hk | hk | hk
  · have hge := significand_ge (m := n) (by omega)
    calc significand m * 2 ^ scale m < 2 ^ 53 * 2 ^ scale m := Nat.mul_lt_mul_of_pos_right hml (by positivity)
      _ = 2 ^ 52 * 2 ^ (scale m + 1) := by rw [pow_succ]; ring
      _ ≤ 2 ^ 52 * 2 ^ scale n := Nat.mul_le_mul_left _ (Nat.pow_le_pow_right (by decide) hk)
      _ ≤ significand n * 2 ^ scale n := Nat.mul_le_mul_right _ hge
  · rw [hk]
    exact Nat.mul_lt_mul_of_pos_right (by rw [hk] at hm; omega) (by positivity)
  · have hge := significand_ge (m := m) (by omega)
    omega

theorem units_inj {m n : Nat} : units m = units n ↔ m = n := by
  refine ⟨fun h => ?_, fun h => by rw [h]⟩
  rcases Nat.lt_trichotomy m n with hlt | heq | hgt
  · exact absurd h (Nat.ne_of_lt (units_strictMono hlt))
  · exact heq
  · exact absurd h.symm (Nat.ne_of_lt (units_strictMono hgt))

theorem units_le {m n : Nat} : units m ≤ units n ↔ m ≤ n := by
  refine ⟨fun h => ?_, fun h => ?_⟩
  · by_contra hc
    exact absurd (units_strictMono (by omega : n < m)) (by omega)
  · rcases Nat.lt_or_eq_of_le h with hlt | rfl
    · exact Nat.le_of_lt (units_strictMono hlt)
    · exact Nat.le_refl _

/-! ### Rounding -/

/-- The number of low binary digits one rounding drops. -/
def dropped (num den : Nat) : Nat := Nat.log2 (num / den) - 52

/-- The significand before it is rounded fits 53 digits, and fills them if any digit is dropped. -/
theorem dropped_spec (num den : Nat) :
    num / (den * 2 ^ dropped num den) < 2 ^ 53 ∧
      (dropped num den ≠ 0 → 2 ^ 52 ≤ num / (den * 2 ^ dropped num den)) := by
  rw [← Nat.div_div_eq_div_mul]
  unfold dropped
  generalize num / den = q
  constructor
  · rcases Nat.eq_zero_or_pos q with rfl | hq
    · simp
    · refine Nat.div_lt_of_lt_mul ?_
      calc q < 2 ^ (q.log2 + 1) := Nat.lt_log2_self
        _ ≤ 2 ^ ((q.log2 - 52) + 53) := Nat.pow_le_pow_right (by decide) (by omega)
        _ = 2 ^ (q.log2 - 52) * 2 ^ 53 := by rw [pow_add]
  · intro h
    have hq : q ≠ 0 := by rintro rfl; simp at h
    rw [Nat.le_div_iff_mul_le (by positivity), ← pow_add, show 52 + (q.log2 - 52) = q.log2 by omega]
    exact Nat.log2_self_le hq

/-- The rounded significand. -/
def roundedSig (num den : Nat) : Nat :=
  let step := den * 2 ^ dropped num den
  if step < 2 * (num % step) ∨ (2 * (num % step) = step ∧ num / step % 2 = 1) then num / step + 1 else num / step

theorem roundMag_eq (num den : Nat) :
    roundMag num den = min infMag (dropped num den * 2 ^ 52 + roundedSig num den) := rfl

/-- A finite rounding has the size of its rounded significand. -/
theorem units_rounded (num den : Nat) :
    units (dropped num den * 2 ^ 52 + roundedSig num den) = roundedSig num den * 2 ^ dropped num den := by
  obtain ⟨h1, h2⟩ := dropped_spec num den
  refine units_of_parts _ _ ?_ ?_
  · dsimp only [roundedSig]; split <;> omega
  · by_cases hk : dropped num den = 0
    · exact .inl hk
    · have := h2 hk
      right; dsimp only [roundedSig]; split <;> omega

/-- A number between two multiples of a step, rounded to the nearer one, ties to the even one: no other multiple is nearer,
and one that is as near means a tie. -/
theorem nearest_step {d n r s j : Nat} (hr : r < d)
    (hs : s = if d < 2 * r ∨ (2 * r = d ∧ n % 2 = 1) then n + 1 else n) (hne : j ≠ s) :
    |(s : Int) * d - (n * d + r)| ≤ |(j : Int) * d - (n * d + r)| ∧
      (|(s : Int) * d - (n * d + r)| = |(j : Int) * d - (n * d + r)| → s % 2 = 0) := by
  obtain ⟨A, hA⟩ : ∃ A : Int, A = (n : Int) * d := ⟨_, rfl⟩
  obtain ⟨B, hB⟩ : ∃ B : Int, B = (j : Int) * d := ⟨_, rfl⟩
  have hd : (0 : Int) ≤ d := by omega
  have hup : ∀ k : Nat, n + k ≤ j → A + k * d ≤ B := fun k hk => by
    have : ((n + k : Nat) : Int) * d ≤ (j : Int) * d := mul_le_mul_of_nonneg_right (by exact_mod_cast hk) hd
    rw [hA, hB]; push_cast at this; linarith
  have hdown : ∀ k : Nat, j + k ≤ n → B + k * d ≤ A := fun k hk => by
    have : ((j + k : Nat) : Int) * d ≤ (n : Int) * d := mul_le_mul_of_nonneg_right (by exact_mod_cast hk) hd
    rw [hA, hB]; push_cast at this; linarith
  obtain ⟨E, hS, hE⟩ : ∃ E : Int, (s : Int) * d = A + E ∧ (s = n ∧ E = 0 ∨ s = n + 1 ∧ E = d) := by
    split at hs
    · exact ⟨d, by rw [hs, hA]; push_cast; ring, .inr ⟨hs, rfl⟩⟩
    · exact ⟨0, by rw [hs, hA]; ring, .inl ⟨hs, rfl⟩⟩
  have hu1 := hup 1
  have hu2 := hup 2
  have hd0 := hdown 0
  have hd1 := hdown 1
  simp only [Nat.cast_one, Nat.cast_ofNat, Nat.cast_zero, one_mul, zero_mul, add_zero] at hu1 hu2 hd0 hd1
  rw [hS, ← hA, ← hB]
  have habs1 := abs_cases (A + E - (A + r))
  have habs2 := abs_cases (B - (A + r))
  split at hs <;> rcases Nat.lt_or_ge n j with hj | hj <;> omega

/-- A number below the lower of the two multiples is further away than the nearer multiple. -/
theorem nearest_below {d n r s : Nat} {x : Int} (hr : r < d)
    (hs : s = if d < 2 * r ∨ (2 * r = d ∧ n % 2 = 1) then n + 1 else n) (hx : x < (n : Int) * d) :
    |(s : Int) * d - (n * d + r)| < |x - (n * d + r)| := by
  obtain ⟨A, hA⟩ : ∃ A : Int, A = (n : Int) * d := ⟨_, rfl⟩
  obtain ⟨E, hS, hE⟩ : ∃ E : Int, (s : Int) * d = A + E ∧ (s = n ∧ E = 0 ∨ s = n + 1 ∧ E = d) := by
    split at hs
    · exact ⟨d, by rw [hs, hA]; push_cast; ring, .inr ⟨hs, rfl⟩⟩
    · exact ⟨0, by rw [hs, hA]; ring, .inl ⟨hs, rfl⟩⟩
  rw [← hA] at hx
  rw [hS, ← hA]
  have habs1 := abs_cases (A + E - (A + r))
  have habs2 := abs_cases (x - (A + r))
  split at hs <;> omega

/-- The size of another pattern is another multiple of the rounding step, or below the truncated significand. -/
theorem other_size (num den : Nat) (hden : 0 < den) {c : Nat}
    (hc : c ≠ dropped num den * 2 ^ 52 + roundedSig num den) :
    (∃ j, den * units c = j * (den * 2 ^ dropped num den) ∧ j ≠ roundedSig num den) ∨
      den * units c < num / (den * 2 ^ dropped num den) * (den * 2 ^ dropped num den) := by
  rcases Nat.lt_or_ge (scale c) (dropped num den) with hs | hs
  · right
    have h52 := (dropped_spec num den).2 (by omega)
    calc den * units c < den * (2 ^ 53 * 2 ^ scale c) :=
          Nat.mul_lt_mul_of_pos_left (Nat.mul_lt_mul_of_pos_right (significand_lt c) (by positivity)) hden
      _ = den * (2 ^ 52 * 2 ^ (scale c + 1)) := by rw [pow_succ]; ring
      _ ≤ den * (2 ^ 52 * 2 ^ dropped num den) :=
          Nat.mul_le_mul_left _ (Nat.mul_le_mul_left _ (Nat.pow_le_pow_right (by decide) hs))
      _ = 2 ^ 52 * (den * 2 ^ dropped num den) := by ring
      _ ≤ _ := Nat.mul_le_mul_right _ h52
  · left
    have hpow : 2 ^ scale c = 2 ^ (scale c - dropped num den) * 2 ^ dropped num den := by
      rw [← pow_add]; congr 1; omega
    refine ⟨significand c * 2 ^ (scale c - dropped num den), ?_, fun hj => hc ?_⟩
    · rw [units, hpow]; ring
    · rw [← units_inj, units_rounded, ← hj, units, hpow]; ring

/-- Nearest, ties to even (R150): no pattern is nearer to `num / den` units than the rounded one, and one that is as near and
differs leaves the rounded one even. -/
theorem roundMag_nearest (num den : Nat) (hden : 0 < den) (hfin : roundMag num den < infMag) (c : Nat) :
    |((den * units (roundMag num den) : Nat) : Int) - num| ≤ |((den * units c : Nat) : Int) - num| ∧
      (|((den * units (roundMag num den) : Nat) : Int) - num| = |((den * units c : Nat) : Int) - num| →
        c = roundMag num den ∨ roundMag num den % 2 = 0) := by
  have hm : roundMag num den = dropped num den * 2 ^ 52 + roundedSig num den := by
    rw [roundMag_eq] at hfin ⊢; omega
  by_cases hcm : c = roundMag num den
  · subst hcm; exact ⟨le_refl _, fun _ => .inl rfl⟩
  · have heven : roundMag num den % 2 = roundedSig num den % 2 := by rw [hm]; omega
    obtain ⟨d, hd⟩ : ∃ d, d = den * 2 ^ dropped num den := ⟨_, rfl⟩
    have hu : den * units (roundMag num den) = roundedSig num den * d := by
      rw [hm, units_rounded, hd]; ring
    have hsig : roundedSig num den =
        if d < 2 * (num % d) ∨ (2 * (num % d) = d ∧ num / d % 2 = 1) then num / d + 1 else num / d := by
      rw [roundedSig, hd]
    have hr : num % d < d := Nat.mod_lt _ (by rw [hd]; positivity)
    have hnum : (num : Int) = (num / d : Nat) * (d : Int) + (num % d : Nat) := by
      have : num = num / d * d + num % d := by rw [Nat.mul_comm]; exact (Nat.div_add_mod num d).symm
      exact_mod_cast this
    have hother := other_size num den hden (hm ▸ hcm)
    rw [← hd] at hother
    rw [hu, heven, hnum]
    simp only [Nat.cast_mul]
    rcases hother with ⟨j, hj, hne⟩ | hlow
    · have hj' : (den : Int) * (units c : Nat) = (j : Int) * d := by exact_mod_cast hj
      rw [hj']
      have := nearest_step hr hsig hne
      exact ⟨this.1, fun h => .inr (this.2 h)⟩
    · have hlow' : (den : Int) * (units c : Nat) < ((num / d : Nat) : Int) * d := by exact_mod_cast hlow
      have := nearest_below hr hsig hlow'
      exact ⟨le_of_lt this, fun h => absurd h (ne_of_lt this)⟩

/-- A number whose last kept digit is that of the largest finite numbers carries out exactly from half a step below the next
power of two on. -/
theorem carry_iff {d n r s : Nat} (hr : r < d) (hn : n < 2 ^ 53)
    (hs : s = if d < 2 * r ∨ (2 * r = d ∧ n % 2 = 1) then n + 1 else n) :
    s = 2 ^ 53 ↔ (2 ^ 54 - 1) * d ≤ 2 * (d * n + r) := by
  by_cases h : n = 9007199254740991
  · subst h; split at hs <;> omega
  · have h1 : d * (n + 2) ≤ d * 9007199254740992 := Nat.mul_le_mul_left d (by omega)
    have h2 : d * (n + 2) = d * n + 2 * d := by ring
    constructor
    · intro h3; exfalso; split at hs <;> omega
    · intro h3; exfalso; omega

/-- The rounding is infinite exactly if the kept digits lie past the largest exponent or carry out of it. -/
theorem roundMag_eq_infMag_iff_parts (num den : Nat) :
    roundMag num den = infMag ↔
      2046 ≤ dropped num den ∨ (dropped num den = 2045 ∧ roundedSig num den = 2 ^ 53) := by
  obtain ⟨hlt, hge⟩ := dropped_spec num den
  have hsig : roundedSig num den = num / (den * 2 ^ dropped num den) + 1 ∨
      roundedSig num den = num / (den * 2 ^ dropped num den) := by
    dsimp only [roundedSig]; split <;> simp
  rw [roundMag_eq, infMag]
  generalize num / (den * 2 ^ dropped num den) = n at *
  generalize dropped num den = k at *
  generalize roundedSig num den = s at *
  omega

/-- Overflow (R150, R155): the rounding is infinite exactly from half a step past the largest finite number on. -/
theorem roundMag_eq_infMag (num den : Nat) (hden : 0 < den) :
    roundMag num den = infMag ↔ (2 ^ 54 - 1) * (2 ^ 2044 * den) ≤ num := by
  rw [roundMag_eq_infMag_iff_parts]
  obtain ⟨hlt, hge⟩ := dropped_spec num den
  have hstep : 0 < den * 2 ^ dropped num den := by positivity
  have hr : num % (den * 2 ^ dropped num den) < den * 2 ^ dropped num den := Nat.mod_lt _ hstep
  have hsplit := Nat.div_add_mod num (den * 2 ^ dropped num den)
  have hsig : roundedSig num den =
      if den * 2 ^ dropped num den < 2 * (num % (den * 2 ^ dropped num den)) ∨
          (2 * (num % (den * 2 ^ dropped num den)) = den * 2 ^ dropped num den ∧
            num / (den * 2 ^ dropped num den) % 2 = 1)
      then num / (den * 2 ^ dropped num den) + 1 else num / (den * 2 ^ dropped num den) := rfl
  have hcarry := carry_iff hr hlt hsig
  rw [hsplit] at hcarry
  have hup : num < 2 ^ 53 * (den * 2 ^ dropped num den) := by
    calc num < (den * 2 ^ dropped num den) * (num / (den * 2 ^ dropped num den) + 1) :=
          Nat.lt_mul_div_succ num hstep
      _ ≤ (den * 2 ^ dropped num den) * 2 ^ 53 := Nat.mul_le_mul_left _ hlt
      _ = _ := Nat.mul_comm _ _
  have hlow : dropped num den ≠ 0 → 2 ^ 52 * (den * 2 ^ dropped num den) ≤ num := fun h =>
    Nat.le_trans (Nat.mul_le_mul_right _ (hge h)) (Nat.div_mul_le_self _ _)
  -- every power in sight as a multiple of one
  obtain ⟨e, he⟩ : ∃ e, e = 2044 := ⟨_, rfl⟩
  rw [← he, show (2046 : Nat) = e + 2 by omega, show (2045 : Nat) = e + 1 by omega]
  clear he hge hlt hr hsplit hsig
  generalize dropped num den = k at *
  generalize roundedSig num den = s at *
  rcases Nat.lt_trichotomy k (e + 1) with hk | hk | hk
  · have h1 : den * 2 ^ k ≤ den * 2 ^ e := Nat.mul_le_mul_left _ (Nat.pow_le_pow_right (by decide) (by omega))
    have h2 : 2 ^ e * den = den * 2 ^ e := Nat.mul_comm _ _
    rw [h2]
    clear hcarry hlow h2 hstep
    generalize den * 2 ^ e = Q at *
    generalize den * 2 ^ k = D at *
    omega
  · have h1 : den * 2 ^ k = 2 * (2 ^ e * den) := by rw [hk, pow_succ]; ring
    rw [h1] at hcarry
    clear hlow hup hstep
    generalize 2 ^ e * den = Q at *
    omega
  · have h1 : den * 2 ^ (e + 2) ≤ den * 2 ^ k := Nat.mul_le_mul_left _ (Nat.pow_le_pow_right (by decide) hk)
    have h2 : den * 2 ^ (e + 2) = 4 * (2 ^ e * den) := by rw [pow_add]; ring
    have h3 := hlow (by omega)
    rw [h2] at h1
    clear hcarry hlow hup h2 hstep
    generalize 2 ^ e * den = Q at *
    generalize den * 2 ^ k = D at *
    omega

theorem roundMag_le (num den : Nat) : roundMag num den ≤ infMag := Nat.min_le_left _ _

theorem roundMag_lt (num den : Nat) : roundMag num den < 2 ^ 63 :=
  Nat.lt_of_le_of_lt (roundMag_le num den) (by decide)

/-! ### Square roots -/

theorem isqrtFrom_spec (k root n : Nat) (hlo : root * root ≤ n) (hhi : n < (root + 2 ^ k) * (root + 2 ^ k)) :
    isqrtFrom k root n * isqrtFrom k root n ≤ n ∧ n < (isqrtFrom k root n + 1) * (isqrtFrom k root n + 1) := by
  induction k generalizing root with
  | zero => simpa [isqrtFrom] using ⟨hlo, hhi⟩
  | succ k ih =>
    rw [isqrtFrom]
    split
    · next h => exact ih _ h (by rwa [Nat.add_assoc, ← Nat.two_mul, ← Nat.pow_succ'])
    · next h => exact ih _ hlo (Nat.lt_of_not_le h)

/-- `isqrt` is the integer square root. -/
theorem isqrt_spec (n : Nat) : isqrt n * isqrt n ≤ n ∧ n < (isqrt n + 1) * (isqrt n + 1) := by
  refine isqrtFrom_spec _ 0 n (by simp) ?_
  rw [Nat.zero_add, ← pow_add]
  calc n < 2 ^ (n.log2 + 1) := Nat.lt_log2_self
    _ ≤ _ := Nat.pow_le_pow_right (by decide) (by omega)

/-! ### NaN results -/

/-- NAN_OF always gives a NaN (R151). -/
theorem isNaN_or_quiet (w : Word) : isNaN (w ||| 0x7FF8000000000000) = true := by
  have hm : mag (w ||| 0x7FF8000000000000) = mag w ||| 0x7FF8000000000000 := by
    rw [mag, BitVec.toNat_or, Nat.or_mod_two_pow]; rfl
  rw [isNaN, hm, decide_eq_true_eq, infMag]
  exact Nat.lt_of_lt_of_le (by decide) Nat.right_le_or

end Sys2Proof.Machine.F64
end

