-- ==== Sys2Proof/Laws/Memory.lean ====
section
/-! SUPPORT. The laws of the program buffer: what a read after a write gives, and that every operation keeps the canonical
form. -/

namespace Sys2Proof.Machine

theorem Memory.read_write_other (m : Memory) {a b : Nat} (h : b ≠ a) (v : Byte) :
    (Memory.write m a v).read b = m.read b := by
  induction m with
  | nil => simp only [Memory.write]; split <;> simp [Memory.read, h]
  | cons c rest ih =>
    obtain ⟨x, w⟩ := c
    simp only [Memory.write]
    split
    · split <;> simp [Memory.read, h]
    · split
      · next hax => subst hax; split <;> simp [Memory.read, h]
      · simp only [Memory.read, ih]

/-- In the canonical form an address below every cell is unlisted. -/
theorem Memory.read_below (m : Memory) (a : Nat) (h : ∀ c ∈ m, a < c.1) : m.read a = Memory.unlisted := by
  induction m with
  | nil => rfl
  | cons c rest ih =>
    obtain ⟨x, w⟩ := c
    have hx : a < x := h (x, w) (by simp)
    simp only [Memory.read, Nat.ne_of_lt hx, if_false]
    exact ih fun c hc => h c (List.mem_cons_of_mem _ hc)

theorem Memory.read_write_same (m : Memory) (hm : m.wf) (a : Nat) (v : Byte) : (Memory.write m a v).read a = v := by
  induction m with
  | nil => simp only [Memory.write]; split <;> simp_all [Memory.read]
  | cons c rest ih =>
    obtain ⟨x, w⟩ := c
    obtain ⟨hs, hz⟩ := hm
    rw [List.pairwise_cons] at hs
    have hrest : Memory.wf rest := ⟨hs.2, fun c hc => hz c (List.mem_cons_of_mem _ hc)⟩
    simp only [Memory.write]
    split
    · next hax =>
      split
      · next hv =>
        rw [hv]
        refine Memory.read_below _ a fun c hc => ?_
        rcases List.mem_cons.1 hc with rfl | hc
        · exact hax
        · exact Nat.lt_trans hax (hs.1 c hc)
      · simp [Memory.read]
    · split
      · next hax =>
        subst hax
        split
        · next hv => rw [hv]; exact Memory.read_below _ a fun c hc => hs.1 c hc
        · simp [Memory.read]
      · next hax => simp only [Memory.read, hax, if_false]; exact ih hrest

/-- Every cell of a buffer after a write is the written one or one that was there. -/
theorem Memory.mem_write {m : Memory} {a : Nat} {v : Byte} {c : Host.Cell} (h : c ∈ Memory.write m a v) :
    (c = (a, v) ∧ v ≠ Memory.unlisted) ∨ c ∈ m := by
  induction m with
  | nil =>
    simp only [Memory.write] at h
    split at h
    · simp at h
    · exact .inl ⟨by simpa using h, ‹_›⟩
  | cons d rest ih =>
    obtain ⟨x, w⟩ := d
    simp only [Memory.write] at h
    split at h
    · split at h
      · exact .inr h
      · rcases List.mem_cons.1 h with rfl | h
        · exact .inl ⟨rfl, ‹_›⟩
        · exact .inr h
    · split at h
      · next hax =>
        subst hax
        split at h
        · exact .inr (List.mem_cons_of_mem _ h)
        · rcases List.mem_cons.1 h with rfl | h
          · exact .inl ⟨rfl, ‹_›⟩
          · exact .inr (List.mem_cons_of_mem _ h)
      · rcases List.mem_cons.1 h with rfl | h
        · exact .inr (by simp)
        · exact (ih h).imp id (List.mem_cons_of_mem _)

theorem Memory.write_wf {m : Memory} (hm : m.wf) (a : Nat) (v : Byte) : (Memory.write m a v).wf := by
  refine ⟨?_, fun c hc => ?_⟩
  · induction m with
    | nil => simp only [Memory.write]; split <;> simp
    | cons d rest ih =>
      obtain ⟨x, w⟩ := d
      obtain ⟨hs, hz⟩ := hm
      rw [List.pairwise_cons] at hs
      have hrest : Memory.wf rest := ⟨hs.2, fun c hc => hz c (List.mem_cons_of_mem _ hc)⟩
      simp only [Memory.write]
      split
      · next hax =>
        split
        · exact List.pairwise_cons.2 hs
        · refine List.pairwise_cons.2 ⟨fun c hc => ?_, List.pairwise_cons.2 hs⟩
          rcases List.mem_cons.1 hc with rfl | hc
          · exact hax
          · exact Nat.lt_trans hax (hs.1 c hc)
      · split
        · split
          · exact hs.2
          · exact List.pairwise_cons.2 hs
        · refine List.pairwise_cons.2 ⟨fun c hc => ?_, ih hrest⟩
          rcases Memory.mem_write hc with ⟨rfl, -⟩ | hc
          · show x < a; omega
          · exact hs.1 c hc
  · rcases Memory.mem_write hc with ⟨rfl, hv⟩ | hc
    · exact hv
    · exact hm.2 c hc

theorem Memory.writeBytes_wf {m : Memory} (hm : m.wf) (a : Nat) (bs : List Byte) : (m.writeBytes a bs).wf := by
  induction bs generalizing m a with
  | nil => exact hm
  | cons b bs ih => exact ih (Memory.write_wf hm a b) (a + 1)

theorem Memory.mem_writeBytes {m : Memory} {a : Nat} {bs : List Byte} {c : Host.Cell}
    (h : c ∈ m.writeBytes a bs) : c ∈ m ∨ (a ≤ c.1 ∧ c.1 < a + bs.length) := by
  induction bs generalizing m a with
  | nil => exact .inl h
  | cons b bs ih =>
    rcases ih h with h | ⟨h1, h2⟩
    · rcases Memory.mem_write h with ⟨rfl, -⟩ | h
      · exact .inr ⟨Nat.le_refl _, by simp⟩
      · exact .inl h
    · exact .inr ⟨by omega, by simp; omega⟩

/-- What a read gives after bytes were written at rising addresses. -/
theorem Memory.read_writeBytes {m : Memory} (hm : m.wf) (a : Nat) (bs : List Byte) (x : Nat) :
    (m.writeBytes a bs).read x = if h : a ≤ x ∧ x < a + bs.length then bs[x - a]'(by omega) else m.read x := by
  induction bs generalizing m a with
  | nil => rw [dif_neg (by simp)]; rfl
  | cons b bs ih =>
    rw [Memory.writeBytes, ih (Memory.write_wf hm a b)]
    by_cases hx : x = a
    · subst hx; simp [Memory.read_write_same m hm]
    · rw [Memory.read_write_other m hx]
      by_cases hlo : a + 1 ≤ x ∧ x < a + 1 + bs.length
      · rw [dif_pos hlo, dif_pos ⟨by omega, by simp; omega⟩]
        have : x - a = (x - (a + 1)) + 1 := by omega
        simp [this]
      · rw [dif_neg hlo, dif_neg (by simp; omega)]

theorem Image.empty_wf : Image.empty.wf := by decide

theorem Image.ofBytes_wf (bs : List Byte) (h : bs.length < 2 ^ 64) : (Image.ofBytes bs).wf := by
  refine ⟨Memory.writeBytes_wf ⟨List.Pairwise.nil, by simp⟩ 0 bs, fun c hc => ?_⟩
  rcases Memory.mem_writeBytes hc with hc | ⟨-, hc⟩
  · simp at hc
  · simp only [Nat.zero_add] at hc
    simpa only [Image.ofBytes, BitVec.toNat_ofNat, Nat.mod_eq_of_lt h] using hc

/-- A buffer made from bytes holds those bytes. -/
theorem Image.byteAt_ofBytes (bs : List Byte) {a : Nat} (h : a < bs.length) : (Image.ofBytes bs).byteAt a = bs[a] := by
  have := Memory.read_writeBytes (m := []) ⟨List.Pairwise.nil, by simp⟩ 0 bs a
  simpa [Image.byteAt, Image.ofBytes, h] using this

@[simp] theorem Image.bytesFrom_length (img : Image) (a n : Nat) :
    (img.bytesFrom a n).length = min n (img.len.toNat - a) := by
  simp [Image.bytesFrom]

theorem Image.bytesFrom_getElem (img : Image) (a n k : Nat) (h : k < (img.bytesFrom a n).length) :
    (img.bytesFrom a n)[k] = img.byteAt (a + k) := by
  simp [Image.bytesFrom]

/-- Nothing at or past PLEN is read (R65, R102). -/
theorem Image.bytesFrom_congr (img img' : Image) (hlen : img.len = img'.len)
    (h : ∀ a, a < img.len.toNat → img.byteAt a = img'.byteAt a) (a n : Nat) :
    img.bytesFrom a n = img'.bytesFrom a n := by
  simp only [Image.bytesFrom, ← hlen]
  refine List.map_congr_left fun k hk => h _ ?_
  have := List.mem_range.1 hk
  omega

end Sys2Proof.Machine
end

