-- ==== Sys2Proof/Laws/PerInstr.lean ====
section
/-! SUPPORT. One statement for every instruction: the length of its encoding is the length of its format, its first byte is
its tag's opcode byte, and no encoding is longer than nine bytes (30_encoding.md R70, R73). -/

namespace Sys2Proof.Laws.EncodeLength

/-- The shape of an instruction's encoding under every choice of the parameters (R70, R73). -/
def Statement (i : Instr) : Prop :=
  ∀ p : Params, (encode p i).length = i.tag.format.length ∧ (encode p i).head? = some (p.opcodeByte i.tag) ∧
    (encode p i).length ≤ maxLength

/-- The statement holds of every encoding, whatever the tag. -/
theorem of_encode (i : Instr) : Statement i := fun p =>
  ⟨encode_length p i, rfl, (encode_length p i).trans_le (Format.length_le _)⟩

theorem halt : Statement .halt := of_encode _

theorem in_ : Statement .in_ := of_encode _

theorem out : Statement .out := of_encode _

theorem add : Statement .add := of_encode _

theorem sub : Statement .sub := of_encode _

theorem mul : Statement .mul := of_encode _

theorem div : Statement .div := of_encode _

theorem sqrt : Statement .sqrt := of_encode _

theorem pop : Statement .pop := of_encode _

theorem popReg (reg : Byte) : Statement (.popReg reg) := of_encode _

theorem pushVal (imm : Word) : Statement (.pushVal imm) := of_encode _

theorem pushReg (reg : Byte) : Statement (.pushReg reg) := of_encode _

theorem jmp (disp : Word) : Statement (.jmp disp) := of_encode _

theorem jif (disp : Word) : Statement (.jif disp) := of_encode _

theorem call (disp : Word) : Statement (.call disp) := of_encode _

theorem ret : Statement .ret := of_encode _

theorem less : Statement .less := of_encode _

theorem greater : Statement .greater := of_encode _

theorem or : Statement .or := of_encode _

theorem and : Statement .and := of_encode _

theorem not : Statement .not := of_encode _

theorem rsvd22 : Statement .rsvd22 := of_encode _

end Sys2Proof.Laws.EncodeLength
end

