-- ==== Sys2Proof/Laws/Rounding.lean ====
section
/-! SUPPORT. The one rounding of Machine/Float.lean meets the definition of correct rounding in Safety.lean. -/

namespace Sys2Proof.Machine.F64

/-- The sign a pattern carries, as a factor. -/
def signFactor (negative : Bool) : ℝ := if negative then -1 else 1

theorem abs_signFactor (negative : Bool) : |signFactor negative| = 1 := by
  cases negative <;> simp [signFactor]

/-- The number of a pattern is its sign times its size. -/
theorem toRat_eq (w : Word) : (toRat w : ℝ) = signFactor (sign w) * units (mag w) / 2 ^ 1074 := by
  rw [toRat, value]
  split <;> simp [signFactor, *]

theorem toRat_eq_zero {w : Word} (h : mag w = 0) : toRat w = 0 := by
  have h0 : units 0 = 0 := by decide
  simp [toRat, value, h, h0]

theorem isFinite_pack (negative : Bool) {m : Nat} (h : m < 2 ^ 63) : isFinite (pack negative m) = decide (m < infMag) := by
  rw [isFinite, mag_pack _ h]

/-- A pattern is as even as its magnitude. -/
theorem toNat_mod_two (negative : Bool) (m : Nat) : (pack negative m).toNat % 2 = m % 2 := by
  unfold pack
  rw [BitVec.toNat_ofNat]
  cases negative
  · simp
  · simp; omega

/-- How far a number of the same sign lies from `num / den` units. -/
theorem distance_eq (negative : Bool) (u num den : Nat) (hden : 0 < den) :
    |signFactor negative * u / 2 ^ 1074 - signFactor negative * ((num : ℝ) / den) / 2 ^ 1074| =
      ((|((den * u : Nat) : Int) - num| : Int) : ℝ) / (den * 2 ^ 1074) := by
  have hd : (0 : ℝ) < den := by exact_mod_cast hden
  have hU : (0 : ℝ) < 2 ^ 1074 := by positivity
  generalize (2 : ℝ) ^ 1074 = U at *
  have h : signFactor negative * u / U - signFactor negative * ((num : ℝ) / den) / U =
      signFactor negative * ((den * u - num) / (den * U)) := by field_simp
  rw [h, abs_mul, abs_signFactor, one_mul, abs_div, abs_of_pos (mul_pos hd hU)]
  push_cast
  rfl

/-- How far a number of the other sign lies from `num / den` units. -/
theorem distance_other_sign (negative : Bool) (u num den : Nat) (hden : 0 < den) :
    |signFactor (!negative) * u / 2 ^ 1074 - signFactor negative * ((num : ℝ) / den) / 2 ^ 1074| =
      ((den * u + num : Nat) : ℝ) / (den * 2 ^ 1074) := by
  have hd : (0 : ℝ) < den := by exact_mod_cast hden
  have hU : (0 : ℝ) < 2 ^ 1074 := by positivity
  generalize (2 : ℝ) ^ 1074 = U at *
  have hs : signFactor (!negative) = -signFactor negative := by cases negative <;> simp [signFactor]
  have h : signFactor (!negative) * u / U - signFactor negative * ((num : ℝ) / den) / U =
      -signFactor negative * ((den * u + num) / (den * U)) := by rw [hs]; field_simp; ring
  rw [h, abs_mul, abs_neg, abs_signFactor, one_mul, abs_of_nonneg (by positivity)]
  push_cast
  rfl

/-- The rounding of `num / den` units, with a sign, is the correct rounding of the number they stand for (R150). -/
theorem roundsTo_pack (negative : Bool) (num den : Nat) (hden : 0 < den) :
    RoundsTo (signFactor negative * ((num : ℝ) / den) / 2 ^ 1074) (pack negative (roundMag num den)) := by
  have hlt := roundMag_lt num den
  have hle := roundMag_le num den
  have hd : (0 : ℝ) < den := by exact_mod_cast hden
  have hU : (0 : ℝ) < 2 ^ 1074 := by positivity
  have hq : (0 : ℝ) ≤ (num : ℝ) / den := by positivity
  refine ⟨?_, ?_, ?_, ?_, ?_⟩
  · rw [isNaN, mag_pack _ hlt, decide_eq_false_iff_not]; omega
  · rw [isInf, mag_pack _ hlt, beq_iff_eq, roundMag_eq_infMag num den hden, abs_div, abs_mul, abs_signFactor, one_mul,
      abs_of_nonneg hq, abs_of_pos hU, le_div_iff₀ hU, le_div_iff₀ hd]
    have hpow : ((2 : ℝ) ^ 1024 - 2 ^ 970) * 2 ^ 1074 * den = (((2 ^ 54 - 1) * (2 ^ 2044 * den) : Nat) : ℝ) := by
      have h1 : (2 : ℝ) ^ 1024 = 2 ^ 54 * 2 ^ 970 := by rw [← pow_add]
      have h2 : (2 : ℝ) ^ 2044 = 2 ^ 970 * 2 ^ 1074 := by rw [← pow_add]
      have h3 : ((2 ^ 54 - 1 : Nat) : ℝ) = 2 ^ 54 - 1 := by norm_num
      rw [Nat.cast_mul, Nat.cast_mul, h3, Nat.cast_pow, Nat.cast_ofNat, h1, h2]
      generalize (2 : ℝ) ^ 970 = A
      generalize (2 : ℝ) ^ 1074 = B
      ring
    rw [hpow, Nat.cast_le]
  · intro hfin c hc
    rw [isFinite_pack _ hlt, decide_eq_true_eq] at hfin
    have hD : (0 : ℝ) < den * 2 ^ 1074 := by positivity
    rw [toRat_eq (pack _ _), toRat_eq c, sign_pack _ hlt, mag_pack _ hlt, distance_eq _ _ _ _ hden, toNat_mod_two]
    by_cases hs : sign c = negative
    · have h := roundMag_nearest num den hden hfin (mag c)
      rw [hs, distance_eq _ _ _ _ hden, div_le_div_iff_of_pos_right hD, div_left_inj' hD.ne', Int.cast_le, Int.cast_inj]
      refine ⟨h.1, fun he => (h.2 he).imp (fun e => congrArg toRat ?_) id⟩
      rw [← pack_sign_mag c, hs, e]
    · have hs' : sign c = !negative := by cases negative <;> simp_all
      have h := roundMag_nearest num den hden hfin 0
      have h0 : units 0 = 0 := by decide
      rw [h0, Nat.mul_zero, Nat.cast_zero, zero_sub, abs_neg, Nat.abs_cast] at h
      rw [hs', distance_other_sign _ _ _ _ hden, div_le_div_iff_of_pos_right hD, div_left_inj' hD.ne']
      have hcast : ((den * units (mag c) + num : Nat) : ℝ) = (((den * units (mag c) + num : Nat) : Int) : ℝ) := by
        push_cast; rfl
      rw [hcast, Int.cast_le, Int.cast_inj]
      push_cast at h ⊢
      have hu : (0 : Int) ≤ den * units (mag c) := by positivity
      refine ⟨by have := h.1; omega, fun he => ?_⟩
      have hzero : (den : Int) * units (mag c) = 0 := by have := h.1; omega
      have hc0 : mag c = 0 := by
        rcases mul_eq_zero.1 hzero with h1 | h1
        · omega
        · rw [← units_inj, h0]; exact_mod_cast h1
      refine (h.2 (by omega)).imp (fun e => ?_) id
      rw [toRat_eq_zero hc0, toRat_eq_zero (by rw [mag_pack _ hlt, ← e])]
  · intro h
    rw [sign_pack _ hlt]
    by_contra hn
    rw [Bool.not_eq_true] at hn
    subst hn
    have : (0 : ℝ) ≤ ((num : ℝ) / den) / 2 ^ 1074 := by positivity
    simp only [signFactor, Bool.false_eq_true, if_false, one_mul] at h
    linarith
  · intro h
    rw [sign_pack _ hlt]
    by_contra hn
    rw [Bool.not_eq_false] at hn
    subst hn
    have : (0 : ℝ) ≤ ((num : ℝ) / den) / 2 ^ 1074 := by positivity
    simp only [signFactor, if_true, neg_mul, one_mul, neg_div] at h
    linarith

end Sys2Proof.Machine.F64
end

