-- ==== Sys2Proof/Laws/Step.lean ====
section
/-! SUPPORT. What a step does, by STATUS, and what a successful fetch says. -/

namespace Sys2Proof.Machine

/-- A running machine fetches, and executes or raises (R108). -/
theorem step_running {s : State} (h : s.status = .running) :
    step s = match s.fetch with
      | .ok i => exec i s
      | .error e => raise (decodeErrorKind e) s := by
  cases hf : s.fetch <;> simp [step, h, hf]

/-- A machine that is not running only starts (R100). -/
theorem step_not_running {s : State} (h : s.status ≠ .running) : step s = s.stopped := by
  unfold step
  split <;> first | rfl | exact absurd ‹_› h

theorem State.fetch_eq_ok {s : State} {i : Instr} :
    s.fetch = .ok i ↔ ∃ rest, decode s.params s.fetchBytes = .ok (i, rest) := by
  unfold State.fetch
  split
  · next j rest h => simp [h]
  · next e h => simp [h]

theorem State.fetch_eq_error {s : State} {e : DecodeError} :
    s.fetch = .error e ↔ decode s.params s.fetchBytes = .error e := by
  unfold State.fetch
  split
  · next h => simp [h]
  · next h => simp [h]

@[simp] theorem State.fetchBytes_length (s : State) :
    s.fetchBytes.length = min maxLength (s.prog.len.toNat - s.ip.toNat) := by
  simp [State.fetchBytes]

/-- Decoding takes as many bytes as the instruction's format says (R70). -/
theorem decode_length {p : Params} {bs rest : List Byte} {i : Instr} (h : decode p bs = .ok (i, rest)) :
    bs.length = i.tag.format.length + rest.length := by
  cases bs with
  | nil => simp [decode] at h
  | cons b bs =>
    simp only [decode] at h
    split at h
    · cases h
    · next t _ =>
      cases t <;> simp only [decodeOperand, decodeReg_eq_ok, decodeWord_eq_ok] at h
      all_goals first
        | (cases h; simp [Instr.tag, Tag.format, Format.length, Format.operandLen, Nat.add_comm]; done)
        | (obtain ⟨_, rfl, -, rfl⟩ := h
           simp [Instr.tag, Tag.format, Format.length, Format.operandLen]; omega)

/-- An instruction that is fetched ends at or before PLEN (R26, R102). -/
theorem State.fetch_in_buffer {s : State} {i : Instr} (h : s.fetch = .ok i) :
    s.ip.toNat + i.tag.format.length ≤ s.prog.len.toNat := by
  obtain ⟨rest, h⟩ := State.fetch_eq_ok.1 h
  have hl := decode_length h
  have hpos : 0 < i.tag.format.length := by simp [Format.length]
  rw [State.fetchBytes_length] at hl
  omega

/-- So advancing past it does not wrap (R26). -/
theorem State.nextIp_toNat {s : State} {i : Instr} (h : s.fetch = .ok i) :
    (s.nextIp i.tag.format).toNat = s.ip.toNat + i.tag.format.length := by
  have h1 := State.fetch_in_buffer h
  have h2 := s.prog.len.isLt
  have h3 := Format.length_le i.tag.format
  simp only [State.nextIp, BitVec.toNat_add, BitVec.toNat_ofNat]
  simp only [maxLength] at h3
  omega

/-- A run of several steps begins with one. -/
theorem run_succ {s t : State} (h : step s = .next t) (n : Nat) :
    Host.Core.run core (n + 1) s = Host.Core.run core n t := by
  have h' : core.step s = .next t := h
  simp only [Host.Core.run]
  rw [h']

/-- A run that begins with a refusal is refused. -/
theorem run_refused {s : State} {r : Refusal} (h : step s = .refused r) (n : Nat) :
    Host.Core.run core (n + 1) s = .refused r := by
  have h' : core.step s = .refused r := h
  simp only [Host.Core.run]
  rw [h']

/-- A state that a step leaves alone is left alone by every run. -/
theorem run_stay {s : State} (h : step s = .next s) (n : Nat) : Host.Core.run core n s = .next s := by
  induction n with
  | zero => rfl
  | succ n ih => rw [run_succ h]; exact ih

end Sys2Proof.Machine
end

