-- ==== Sys2Proof/Tests/Slice0.lean ====
section
/-! SUPPORT. The model's own tests: ill-formed instructions are refused, words written out from the encoding tables decode to the
instruction they stand for, vectors of 95_test_vectors.md hold, and the hypotheses of every statement can be met. Expected
values come from the spec, by the rule or the vector each comment names. -/

namespace Sys2Proof.Tests

open Sys2Proof Sys2Proof.Machine

set_option Elab.async false

/-! ### Helpers -/

/-- The next state an outcome gives, if any. -/
def after : Result → Option State
  | .next s => some s
  | .fault _ => none
  | .refused _ => none

/-- A run at offset 8 of the given bytes behind the reference header. -/
def machine (code : List Byte) (os cs : List Word) : State :=
  { State.reset with status := .running, prog := Image.ofBytes (referenceHeader ++ code), os := os, cs := cs }

/-- The operand stack and `ip` after one step from offset 8. -/
def stepOs (code : List Byte) (os : List Word) : Option (List Word × Word) :=
  (after (step (machine code os []))).map fun s => (s.os, s.ip)

/-- STATUS after one step from offset 8. -/
def stepStatus (code : List Byte) (os cs : List Word) : Option Status :=
  (after (step (machine code os cs))).map (·.status)

/-- Zero bytes up to PLEN = 40, for the vectors of 95_test_vectors.md section 2.6. -/
def padded (code : List Byte) : List Byte := code ++ List.replicate (32 - code.length) 0

/-! ### Well-formedness -/

/-- R74, R78: register bytes 4 and 255 are illegal. -/
theorem test_ill_formed_register_bytes :
    (Instr.popReg 4).wellFormed = false ∧ (Instr.popReg 255).wellFormed = false ∧
      (Instr.pushReg 4).wellFormed = false ∧ (Instr.pushReg 255).wellFormed = false := by decide

/-- R74, R78: register byte 3, and every literal and displacement pattern, are legal. -/
theorem test_well_formed_operands :
    (Instr.popReg 3).wellFormed = true ∧ (Instr.pushReg 3).wellFormed = true ∧
      (Instr.pushVal 0x7FF0000000000001).wellFormed = true ∧ (Instr.jmp 0xFFFFFFFFFFFFFFFF).wellFormed = true := by decide

/-! ### Encodings, written out from R70, R72 and the pages of the instructions -/

/-- R130, R132, R135: `00`, `01`, `02`. -/
theorem test_decode_control_io :
    decode referenceParams [0x00] = .ok (.halt, []) ∧ decode referenceParams [0x01] = .ok (.in_, []) ∧
      decode referenceParams [0x02] = .ok (.out, []) := ⟨rfl, rfl, rfl⟩

/-- R155 to R159: `03` to `07`. -/
theorem test_decode_arithmetic :
    decode referenceParams [0x03] = .ok (.add, []) ∧ decode referenceParams [0x04] = .ok (.sub, []) ∧
      decode referenceParams [0x05] = .ok (.mul, []) ∧ decode referenceParams [0x06] = .ok (.div, []) ∧
      decode referenceParams [0x07] = .ok (.sqrt, []) := ⟨rfl, rfl, rfl, rfl, rfl⟩

/-- R181, R183, R184, R185: `08`, `09 03`, `push 3` of W1, `0B 01`; the byte after each instruction is left over. -/
theorem test_decode_stack :
    decode referenceParams [0x08, 0xAA] = .ok (.pop, [0xAA]) ∧
      decode referenceParams [0x09, 0x03, 0xAA] = .ok (.popReg 3, [0xAA]) ∧
      decode referenceParams [0x0A, 0x00, 0x00, 0x00, 0x00, 0x00, 0x00, 0x08, 0x40, 0xAA] =
        .ok (.pushVal 0x4008000000000000, [0xAA]) ∧
      decode referenceParams [0x0B, 0x01, 0xAA] = .ok (.pushReg 1, [0xAA]) := ⟨rfl, rfl, rfl, rfl⟩

/-- R203 to R206: W2's `jmp loop`, P4's `jif loop`, P5's `call sq`, and `0F`. -/
theorem test_decode_control_flow :
    decode referenceParams [0x0C, 0xEC, 0xFF, 0xFF, 0xFF, 0xFF, 0xFF, 0xFF, 0xFF] = .ok (.jmp 0xFFFFFFFFFFFFFFEC, []) ∧
      decode referenceParams [0x0D, 0xDA, 0xFF, 0xFF, 0xFF, 0xFF, 0xFF, 0xFF, 0xFF] =
        .ok (.jif 0xFFFFFFFFFFFFFFDA, []) ∧
      decode referenceParams [0x0E, 0xE6, 0xFF, 0xFF, 0xFF, 0xFF, 0xFF, 0xFF, 0xFF] =
        .ok (.call 0xFFFFFFFFFFFFFFE6, []) ∧
      decode referenceParams [0x0F] = .ok (.ret, []) := ⟨rfl, rfl, rfl, rfl⟩

/-- R232 to R236: `10` to `14`. -/
theorem test_decode_relational :
    decode referenceParams [0x10] = .ok (.less, []) ∧ decode referenceParams [0x11] = .ok (.greater, []) ∧
      decode referenceParams [0x12] = .ok (.or, []) ∧ decode referenceParams [0x13] = .ok (.and, []) ∧
      decode referenceParams [0x14] = .ok (.not, []) := ⟨rfl, rfl, rfl, rfl, rfl⟩

/-- R80: `15` is the unnamed member, and nothing after it is its operand. -/
theorem test_decode_unnamed : decode referenceParams [0x15, 0x09] = .ok (.rsvd22, [0x09]) := rfl

/-- Vectors DC1, DC2, DC4, DC5, DC6, DC8 and DC9, and S14. -/
theorem test_decode_rejects :
    decode referenceParams [0x16] = .error .unknownOpcode ∧ decode referenceParams [0xFF] = .error .unknownOpcode ∧
      decode referenceParams [0x0C] = .error .truncated ∧
      decode referenceParams [0x0A, 0x00, 0x00, 0x00, 0x00] = .error .truncated ∧
      decode referenceParams [0x09] = .error .truncated ∧
      decode referenceParams [0x09, 0x04] = .error .unknownRegister ∧
      decode referenceParams [0x16, 0x04] = .error .unknownOpcode ∧
      decode referenceParams [0x0B, 0x04] = .error .unknownRegister ∧
      decode referenceParams [] = .error .endOfBuffer := ⟨rfl, rfl, rfl, rfl, rfl, rfl, rfl, rfl, rfl⟩

/-- R53: with ENDIAN = big-endian the lowest address holds the most significant byte. -/
theorem test_decode_big_endian :
    decode { referenceParams with endian := .big } [0x0A, 0x40, 0x08, 0x00, 0x00, 0x00, 0x00, 0x00, 0x01] =
      .ok (.pushVal 0x4008000000000001, []) := rfl

/-- R72: another dense assignment moves every tag, and the old byte of HALT is outside the enumeration. -/
theorem test_decode_other_opcodes :
    decode { referenceParams with opcodes := referenceOpcodes.map (· + 0x20) } [0x23] = .ok (.add, []) ∧
      decode { referenceParams with opcodes := referenceOpcodes.map (· + 0x20) } [0x00] = .error .unknownOpcode :=
  ⟨rfl, rfl⟩

/-- R70, R53: the encoder writes W2's `jmp loop` and `pop rax`. -/
theorem test_encode :
    encode referenceParams (.jmp 0xFFFFFFFFFFFFFFEC) = [0x0C, 0xEC, 0xFF, 0xFF, 0xFF, 0xFF, 0xFF, 0xFF, 0xFF] ∧
      encode referenceParams (.popReg 0) = [0x09, 0x00] ∧
      encode { referenceParams with endian := .big } (.pushVal 0x4008000000000001) =
        [0x0A, 0x40, 0x08, 0x00, 0x00, 0x00, 0x00, 0x00, 0x01] := by decide

/-- A word of the opcode table: `0x09` with eight bits is `pop rax` with a zero operand byte. -/
theorem test_table_word : decodeTableWord 8 0x09 = some (.popReg 0) ∧ decodeTableWord 16 0x0309 = some (.popReg 3) := by
  decide

/-- R8, R25, R72, R79: the reference parameters are among those the spec allows. -/
theorem test_reference_params_allowed : referenceParams.Allowed := by decide +kernel

/-! ### Vectors of 95_test_vectors.md: start, fetch, control and I/O -/

/-- X1 and X2, and a PLEN of 8 with the header accepted. -/
theorem test_start :
    (State.start (Image.ofBytes [0, 0, 0, 0, 0]) State.reset).status = .error .headerMismatch ∧
      (State.start (Image.ofBytes [1, 0, 0, 0, 0, 0, 0, 0, 0]) State.reset).status = .error .headerMismatch ∧
      (State.start (Image.ofBytes referenceHeader) State.reset).status = .running := by decide +kernel

/-- X4: a buffer that is a header alone. -/
theorem test_header_alone : stepStatus [] [] [] = some (.error .noHalt) := by decide +kernel

/-- DC1, DC5, DC8 and DC9, by the step. -/
theorem test_fetch_errors :
    stepStatus [0x16] [] [] = some (.error .unknownCommand) ∧
      stepStatus [0x0A, 0, 0, 0, 0] [] [] = some (.error .noHalt) ∧
      stepStatus [0x09, 0x04] [] [] = some (.error .unknownRegister) ∧
      stepStatus [0x16, 0x04] [] [] = some (.error .unknownCommand) := by decide +kernel

/-- IO1. -/
theorem test_halt :
    after (step (machine [0x00] [0x3FF0000000000000] [17])) =
      some { machine [0x00] [0x3FF0000000000000] [17] with status := .halted } := by decide +kernel

/-- IO3: a NaN is pushed bit for bit. -/
theorem test_in_nan :
    (after (step { machine [0x01] [] [] with input := [0x7FF8000000000000, 5] })).map (fun s => (s.os, s.input, s.ip)) =
      some ([0x7FF8000000000000], [5], 9) := by decide +kernel

/-- IO4: the input is taken before the capacity is checked. -/
theorem test_in_full :
    (after (step { machine [0x01] [1] [] with
      params := { referenceParams with opstackCap := 1 }, input := [0x3FF0000000000000] })).map
        (fun s => (s.status, s.input, s.taken)) = some (.error .outOfMemory, [], 1) := by decide +kernel

/-- IO7, after an earlier output. -/
theorem test_out_order :
    (after (step { machine [0x02] [0x7FF0000000000001] [] with output := [7] })).map (fun s => (s.os, s.output, s.ip)) =
      some ([], [7, 0x7FF0000000000001], 9) := by decide +kernel

/-- IO6. -/
theorem test_out_empty :
    (after (step (machine [0x02] [] []))).map (fun s => (s.status, s.output)) =
      some (.error .popFromEmptyStack, []) := by decide +kernel

/-! ### Arithmetic -/

/-- A8: 0.1 + 0.2. -/
theorem test_add_rounds :
    stepOs [0x03] [0x3FC999999999999A, 0x3FB999999999999A] = some ([0x3FD3333333333334], 9) := by decide +kernel

/-- A31: a full stack does not stop an operation that pops before it pushes. -/
theorem test_add_at_capacity :
    (after (step { machine [0x03] [0x4000000000000000, 0x3FF0000000000000] [] with
      params := { referenceParams with opstackCap := 2 } })).map (fun s => (s.os, s.status)) =
      some ([0x4008000000000000], .running) := by decide +kernel

/-- A9 and A10: the first operand pushed is the left-hand one. -/
theorem test_sub_order :
    stepOs [0x04] [0x4010000000000000, 0x4024000000000000] = some ([0x4018000000000000], 9) ∧
      stepOs [0x04] [0x4024000000000000, 0x4010000000000000] = some ([0xC018000000000000], 9) := by decide +kernel

/-- A12: `(-0) - (+0)`. -/
theorem test_sub_zeros : stepOs [0x04] [0, 0x8000000000000000] = some ([0x8000000000000000], 9) := by decide +kernel

/-- A16: underflow to zero, and A15: the sign of a zero. -/
theorem test_mul :
    stepOs [0x05] [0x01A56E1FC2F8F359, 0x01A56E1FC2F8F359] = some ([0], 9) ∧
      stepOs [0x05] [0x4014000000000000, 0x8000000000000000] = some ([0x8000000000000000], 9) := by decide +kernel

/-- A21: 1 / 3, and A19: 5 / -0. -/
theorem test_div :
    stepOs [0x06] [0x4008000000000000, 0x3FF0000000000000] = some ([0x3FD5555555555555], 9) ∧
      stepOs [0x06] [0x8000000000000000, 0x4014000000000000] = some ([0xFFF0000000000000], 9) := by decide +kernel

/-- A25: the root of 2. -/
theorem test_sqrt_rounds : stepOs [0x07] [0x4000000000000000] = some ([0x3FF6A09E667F3BCD], 9) := by decide +kernel

/-- A30: only the top is used, and A27: the root of -0. -/
theorem test_sqrt_top :
    stepOs [0x07] [0x4022000000000000, 0x401C000000000000] = some ([0x4008000000000000, 0x401C000000000000], 9) ∧
      stepOs [0x07] [0x8000000000000000] = some ([0x8000000000000000], 9) := by decide +kernel

/-- A7: a sum past the largest finite number. -/
theorem test_add_overflow :
    stepOs [0x03] [0x7FEFFFFFFFFFFFFF, 0x7FEFFFFFFFFFFFFF] = some ([0x7FF0000000000000], 9) := by decide +kernel

/-! ### Stack moves -/

/-- S1 and S2. -/
theorem test_pop :
    stepOs [0x08] [0x4000000000000000, 0x3FF0000000000000] = some ([0x3FF0000000000000], 9) ∧
      stepStatus [0x08] [] [] = some (.error .popFromEmptyStack) := by decide +kernel

/-- S4: `pop rdx`. -/
theorem test_pop_reg :
    (after (step (machine [0x09, 0x03] [0x4004000000000000] []))).map (fun s => (s.regs.rdx, s.regs.rax, s.os, s.ip)) =
      some (0x4004000000000000, 0x7FF8000000000000, [], 10) := by decide +kernel

/-- S6 and S7. -/
theorem test_pop_reg_errors :
    stepStatus [0x09, 0xFF] [1] [] = some (.error .unknownRegister) ∧
      stepStatus [0x09, 0x00] [] [] = some (.error .popFromEmptyStack) := by decide +kernel

/-- S9: a signalling NaN is pushed unchanged. -/
theorem test_push_val :
    stepOs [0x0A, 0x01, 0x00, 0x00, 0x00, 0x00, 0x00, 0xF0, 0x7F] [] = some ([0x7FF0000000000001], 17) := by
  decide +kernel

/-- S11. -/
theorem test_push_val_full :
    (after (step { machine [0x0A, 0, 0, 0, 0, 0, 0, 0xF0, 0x3F] [1] [] with
      params := { referenceParams with opstackCap := 1 } })).map (·.status) = some (.error .outOfMemory) := by
  decide +kernel

/-- S12 and S13: `push rbx` with 2.0 in rbx, and `push rcx` of a register nothing has written. -/
theorem test_push_reg :
    (after (step { machine [0x0B, 0x01] [] [] with
      regs := { rax := 1, rbx := 0x4000000000000000, rcx := 3, rdx := 4 } })).map (fun s => (s.os, s.regs.rbx, s.ip)) =
      some ([0x4000000000000000], 0x4000000000000000, 10) ∧
      stepOs [0x0B, 0x02] [] = some ([0x7FF8000000000000], 10) := by decide +kernel

/-- S16 and S15: the register check comes before the capacity check. -/
theorem test_push_reg_full :
    (after (exec (.pushReg 5) { State.reset with params := { referenceParams with opstackCap := 0 } })).map (·.status) =
      some (.error .unknownRegister) ∧
      (after (exec (.pushReg 0) { State.reset with params := { referenceParams with opstackCap := 0 } })).map (·.status) =
      some (.error .outOfMemory) := by decide +kernel

/-! ### Control flow, PLEN = 40 -/

/-- F3, F4 and F5: the last offset is a target, PLEN and a target before offset 0 are not. -/
theorem test_jmp_bounds :
    stepStatus (padded [0x0C, 0x17, 0, 0, 0, 0, 0, 0, 0]) [] [] = some (.error .badJumpAddress) ∧
      stepOs (padded [0x0C, 0x16, 0, 0, 0, 0, 0, 0, 0]) [] = some ([], 39) ∧
      stepStatus (padded [0x0C, 0xE3, 0xFF, 0xFF, 0xFF, 0xFF, 0xFF, 0xFF, 0xFF]) [] [] =
        some (.error .badJumpAddress) := by decide +kernel

/-- F6 under both header policies. -/
theorem test_jmp_header :
    stepStatus (padded [0x0C, 0xF2, 0xFF, 0xFF, 0xFF, 0xFF, 0xFF, 0xFF, 0xFF]) [] [] = some (.error .badJumpAddress) ∧
      (after (step { machine (padded [0x0C, 0xF2, 0xFF, 0xFF, 0xFF, 0xFF, 0xFF, 0xFF, 0xFF]) [] [] with
        params := { referenceParams with headerPolicy := .execute } })).map (·.ip) = some 3 := by decide +kernel

/-- F10 and F11: zeros and NaN fall through, the smallest subnormal jumps. -/
theorem test_jif :
    stepOs (padded [0x0D, 0x0B, 0, 0, 0, 0, 0, 0, 0]) [0x8000000000000000] = some ([], 17) ∧
      stepOs (padded [0x0D, 0x0B, 0, 0, 0, 0, 0, 0, 0]) [0x7FF8000000000000] = some ([], 17) ∧
      stepOs (padded [0x0D, 0x0B, 0, 0, 0, 0, 0, 0, 0]) [0x0000000000000001] = some ([], 28) := by decide +kernel

/-- F15 for both values of JIF_UNTAKEN_CHECK. -/
theorem test_jif_untaken :
    stepOs (padded [0x0D, 0x17, 0, 0, 0, 0, 0, 0, 0]) [0xBFF0000000000000] = some ([], 17) ∧
      (after (step { machine (padded [0x0D, 0x17, 0, 0, 0, 0, 0, 0, 0]) [0xBFF0000000000000] [] with
        params := { referenceParams with jifUntakenCheck := true } })).map (·.status) =
        some (.error .badJumpAddress) := by decide +kernel

/-- F16. -/
theorem test_call :
    (after (step (machine (padded [0x0E, 0x0D, 0, 0, 0, 0, 0, 0, 0]) [5] []))).map (fun s => (s.cs, s.ip, s.os)) =
      some ([17], 30, [5]) := by decide +kernel

/-- F17 with a target that is out of bounds too, and F18. -/
theorem test_call_errors :
    (after (step { machine (padded [0x0E, 0x17, 0, 0, 0, 0, 0, 0, 0]) [] [] with
      params := { referenceParams with callstackCap := 0 } })).map (·.status) = some (.error .outOfMemory) ∧
      stepStatus (padded [0x0E, 0x17, 0, 0, 0, 0, 0, 0, 0]) [] [] = some (.error .badJumpAddress) := by decide +kernel

/-- F12. -/
theorem test_ret_empty : stepStatus [0x0F] [1] [] = some (.error .retWithoutCall) := by decide +kernel

/-- F19 and F20: a return address at PLEN is not checked by RET. -/
theorem test_ret :
    (after (step (machine (padded [0x0F]) [] [17]))).map (fun s => (s.cs, s.ip)) = some ([], 17) ∧
      (after (step (machine (padded [0x0F]) [] [40]))).map (fun s => (s.status, s.ip)) = some (.running, 40) := by
  decide +kernel

/-! ### Relational and boolean -/

/-- B1, B5 and B6. -/
theorem test_less :
    stepOs [0x10] [0x4008000000000000, 0x4000000000000000] = some ([0x3FF0000000000000], 9) ∧
      stepOs [0x10] [0, 0x8000000000000000] = some ([0xBFF0000000000000], 9) ∧
      stepOs [0x10] [0, 0xFFF0000000000000] = some ([0x3FF0000000000000], 9) := by decide +kernel

/-- B8, B10 and B11. -/
theorem test_greater :
    stepOs [0x11] [0x4008000000000000, 0x4000000000000000] = some ([0xBFF0000000000000], 9) ∧
      stepOs [0x11] [0x7FF8000000000000, 0x3FF0000000000000] = some ([0xBFF0000000000000], 9) ∧
      stepOs [0x11] [0x7FE1CCF385EBC8A0, 0x7FF0000000000000] = some ([0x3FF0000000000000], 9) := by decide +kernel

/-- B14 and B15. -/
theorem test_or :
    stepOs [0x12] [0x8000000000000000, 0] = some ([0xBFF0000000000000], 9) ∧
      stepOs [0x12] [0x3FE0000000000000, 0x7FF8000000000000] = some ([0x3FF0000000000000], 9) := by decide +kernel

/-- B16 and B20. -/
theorem test_and :
    stepOs [0x13] [0xBFF0000000000000, 0x3FF0000000000000] = some ([0xBFF0000000000000], 9) ∧
      stepOs [0x13] [0x3FF0000000000000, 1] = some ([0x3FF0000000000000], 9) := by decide +kernel

/-- B23 and B24 under both modes. -/
theorem test_not :
    notWord .negate 0 = 0x8000000000000000 ∧ notWord .boolean 0 = 0x3FF0000000000000 ∧
      notWord .negate 0x4014000000000000 = 0xC014000000000000 ∧
      notWord .boolean 0x4014000000000000 = 0xBFF0000000000000 := by decide +kernel

/-- B25. -/
theorem test_not_empty : stepStatus [0x14] [] [] = some (.error .notEnoughArgs) := by decide +kernel

/-- DC7. -/
theorem test_unnamed : stepStatus [0x15] [] [] = some .refused := by decide +kernel

/-- A table word placed where the next fetch finds it, right after reset: `push` with a zero literal (R184). -/
theorem test_with_fetch_word :
    (after (step (State.reset.withFetchWord 8 0x0A))).map (fun s => (s.os, s.ip, s.status)) =
      some ([0], 17, .running) := by decide +kernel

/-! ### Witnesses: the hypotheses of each statement, clause by clause, at the ends of their ranges -/

/-- A run at offset 8 of 32 zero bytes: PLEN is 40. -/
def idleRun (os cs : List Word) : State := machine (padded []) os cs

/-- A buffer that is the reference header and one byte. -/
def image (b : Byte) : Image := Image.ofBytes (referenceHeader ++ [b])

/-- Parameters whose stacks hold one value each. -/
def tight : Params := { referenceParams with opstackCap := 1, callstackCap := 1 }

theorem wit_DecodeEncodeRoundTrip :
    referenceParams.OpcodesInjective ∧ (Instr.popReg 3).wellFormed = true ∧ (Instr.popReg 0).wellFormed = true ∧
      Params.OpcodesInjective { referenceParams with endian := .big } := by decide +kernel

theorem wit_DecodeAcceptsOnlyEncodings : decode referenceParams [0x09, 0x03, 0x00] = .ok (.popReg 3, [0x00]) := rfl

theorem wit_StepChecksInOrder_fetch :
    (machine [] [] []).status = .running ∧ (machine [] [] []).params.OpcodesInjective ∧
      (machine [] [] []).prog.len.toNat ≤ (machine [] [] []).ip.toNat := by decide +kernel

theorem wit_StepChecksInOrder_opcode :
    (machine [0x16] [] []).ip.toNat < (machine [0x16] [] []).prog.len.toNat ∧
      ∀ t, (machine [0x16] [] []).params.opcodeByte t ≠ (machine [0x16] [] []).prog.byteAt 8 :=
  ⟨by decide +kernel, fun t => by cases t <;> decide +kernel⟩

theorem wit_StepChecksInOrder_truncated :
    let s := machine [0x0A, 0, 0, 0, 0, 0, 0, 0] [] []
    s.ip.toNat < s.prog.len.toNat ∧ s.params.opcodeByte .pushVal = s.prog.byteAt s.ip.toNat ∧
      s.prog.len.toNat - s.ip.toNat - 1 < Tag.pushVal.format.operandLen := by decide +kernel

theorem wit_StepChecksInOrder_register :
    let s := machine [0x09, 0x04] [] []
    s.ip.toNat < s.prog.len.toNat ∧ s.params.opcodeByte .popReg = s.prog.byteAt s.ip.toNat ∧
      Tag.popReg.format = .FR ∧ 1 ≤ s.prog.len.toNat - s.ip.toNat - 1 ∧
      3 < (s.prog.byteAt (s.ip.toNat + 1)).toNat := by decide +kernel

theorem wit_StepChecksInOrder_execute :
    let s := machine [0x09, 0x03] [1] []
    s.ip.toNat < s.prog.len.toNat ∧ s.params.opcodeByte (Instr.popReg 3).tag = s.prog.byteAt s.ip.toNat ∧
      (Instr.popReg 3).operandBytes s.params.endian =
        s.prog.bytesFrom (s.ip.toNat + 1) (Instr.popReg 3).tag.format.operandLen ∧
      (Instr.popReg 3).wellFormed = true := by decide +kernel

theorem wit_FetchPastEndRaisesNoHalt :
    (machine [] [] []).status = .running ∧ (machine [] [] []).prog.len.toNat ≤ (machine [] [] []).ip.toNat := by
  decide +kernel

theorem wit_StepRunsDecodedInstruction :
    (machine [0x09, 0x03] [1] []).status = .running ∧
      decode (machine [0x09, 0x03] [1] []).params ((machine [0x09, 0x03] [1] []).prog.bytesFrom 8 9) =
        .ok (.popReg 3, []) ∧
      (Instr.popReg 3).wellFormed = true := ⟨rfl, rfl, rfl⟩

theorem wit_FetchReadsOnlyTheBuffer :
    let s := machine [0x03] [] []
    let img : Image := { s.prog with cells := s.prog.cells ++ [(9, 0x07)] }
    img.len = s.prog.len ∧ (∀ a, a < s.prog.len.toNat → img.byteAt a = s.prog.byteAt a) ∧
      img.byteAt 9 ≠ s.prog.byteAt 9 := by decide +kernel

theorem wit_StartOfRunState : (Image.ofBytes referenceHeader).headerAccepted State.reset.params = true := by
  decide +kernel

theorem wit_StartSequence :
    let short := Image.ofBytes [0, 0, 0, 0, 0, 0, 0]
    let other := Image.ofBytes [1, 0, 0, 0, 0, 0, 0, 0]
    let good := Image.ofBytes referenceHeader
    State.reset.status ≠ .running ∧ (State.reset.requestStart short).pendingStarts = [short] ∧
      (State.reset.requestStart good).pendingStarts = [good] ∧ short.len.toNat < 8 ∧
      other.bytesFrom 0 8 ∉ State.reset.params.acceptedHeaders ∧ 8 ≤ good.len.toNat ∧
      good.bytesFrom 0 8 ∈ State.reset.params.acceptedHeaders := by decide +kernel

theorem wit_NothingCarriesOverBetweenRuns :
    let s := State.reset.requestStart (image 0x02)
    let t := { idleRun [1] [9] with status := .error .noHalt, pendingStarts := [image 0x02], output := [7], taken := 3 }
    s.status ≠ .running ∧ t.status ≠ .running ∧ s.params = t.params ∧ s.input = t.input ∧
      s.pendingStarts = [image 0x02] ∧ t.pendingStarts = [image 0x02] := by decide +kernel

theorem wit_ErrorLeavesOnlyByStart :
    (State.raised .retWithoutCall State.reset).status = .error .retWithoutCall ∧
      (State.raised .retWithoutCall State.reset).pendingStarts = [] ∧
      (State.raised .retWithoutCall (State.reset.requestStart (image 0))).pendingStarts = [image 0] := ⟨rfl, rfl, rfl⟩

theorem wit_StoppedUntilStart :
    State.reset.status = .idle ∧ State.reset.pendingStarts = [] ∧ State.reset.halt.status = .halted ∧
      State.reset.halt.pendingStarts = [] ∧ State.reset.refuse.status = .refused ∧
      State.reset.refuse.pendingStarts = [] := ⟨rfl, rfl, rfl, rfl, rfl, rfl⟩

/-- A running state with return addresses at both ends of their range. -/
def returning : State := machine (padded [0x08]) [1, 2] [9, 40]

theorem wit_StepKeepsInvariant_buffer : returning.prog.wf :=
  Image.ofBytes_wf (referenceHeader ++ padded [0x08]) (by decide +kernel)

theorem wit_StepKeepsInvariant : returning.Inv ∧ ∃ t, step returning = .next t :=
  ⟨⟨wit_StepKeepsInvariant_buffer, by decide +kernel, by decide +kernel, by decide +kernel, by decide +kernel,
    by decide +kernel, by decide +kernel,
    fun _ => List.forall_mem_cons.2 ⟨by decide +kernel, List.forall_mem_cons.2 ⟨by decide +kernel, nofun⟩⟩⟩, _, rfl⟩

theorem wit_StatusTransitions :
    (machine [0x00] [] []).status = .running ∧ (∃ t, step (machine [0x00] [] []) = .next t ∧ t.status = .halted) ∧
      (machine [0x15] [] []).status = .running ∧ ∃ t, step (machine [0x15] [] []) = .next t ∧ t.status = .refused :=
  ⟨rfl, ⟨_, rfl, rfl⟩, rfl, _, rfl, rfl⟩

theorem wit_StepHasNoOtherSideEffect :
    (machine [0x09, 0x03] [1] []).status = .running ∧
      (∃ t, step (machine [0x09, 0x03] [1] []) = .next t ∧ t.Completed ∧ t.regs ≠ (machine [0x09, 0x03] [1] []).regs) ∧
      (∃ t, step (machine [0x02] [1] []) = .next t ∧ t.output = [1]) ∧
      ∃ t, step { machine [0x01] [] [] with input := [5] } = .next t ∧ t.taken = 1 :=
  ⟨rfl, ⟨_, rfl, .inl rfl, by decide⟩, ⟨_, rfl, rfl⟩, _, rfl, rfl⟩

theorem wit_ErroringStepIsSilent :
    (∃ t, step { machine [0x01] [1] [] with input := [5], params := tight } = .next t ∧
      t.status = .error .outOfMemory ∧ t.taken = 1) ∧
      ∃ t, step (machine [0x02] [] []) = .next t ∧ t.status = .error .popFromEmptyStack :=
  ⟨⟨_, rfl, rfl, rfl⟩, _, rfl, rfl⟩

theorem wit_RegistersOnlyThroughMoves :
    (∃ t, (machine [] [] []).status = .running ∧ exec (.pushReg 0) (machine [] [] []) = .next t ∧ t.Completed ∧
      ∀ reg, Instr.pushReg 0 ≠ .popReg reg) ∧
      (∀ reg, Instr.popReg 0 ≠ .pushReg reg) ∧ (idleRun [1] []).os = 1 :: [] ∧
      (idleRun [] []).os.length ≠ (idleRun [] []).params.opstackCap :=
  ⟨⟨_, rfl, rfl, .inl rfl, nofun⟩, nofun, rfl, by decide +kernel⟩

theorem wit_CallStackIsolated :
    (∃ t, exec .pop (idleRun [1] [9]) = .next t ∧ t.Completed ∧ (∀ disp, Instr.pop ≠ .call disp) ∧ Instr.pop ≠ .ret) ∧
      (∃ t, (idleRun [] []).status = .running ∧ exec (.call 22) (idleRun [] []) = .next t ∧ t.Completed) ∧
      ∃ t, exec .ret (idleRun [] [40]) = .next t ∧ t.Completed :=
  ⟨⟨_, rfl, .inl rfl, nofun, nofun⟩,
    ⟨_, rfl, rfl, .inl rfl⟩, _, rfl, .inl rfl⟩

theorem wit_OperandStackUntouched :
    Instr.jmp 22 ∈ [Instr.halt, Instr.jmp 22, Instr.call 22, Instr.ret] ∧
      (∃ t, exec (.jmp 22) (idleRun [1] []) = .next t ∧ t.Completed ∧ t.ip = 39) ∧
      ∃ t, exec .halt (idleRun [1] []) = .next t ∧ t.Completed :=
  ⟨by decide, ⟨_, rfl, .inl rfl, rfl⟩, _, rfl, .inr rfl⟩

theorem wit_StepKeepsParamsAndBuffer :
    (∃ t, step State.reset = .next t) ∧ ∃ t, (idleRun [] []).status = .running ∧ step (idleRun [] []) = .next t :=
  ⟨⟨_, rfl⟩, _, rfl, rfl⟩

theorem wit_StatusWordLayout :
    ((State.raised .retWithoutCall State.reset).status, (0x93 : Word)) ∈
      [(Status.idle, 0x00#64), (Status.running, 0x01#64), (Status.halted, 0x02#64),
        (Status.refused, 0x04#64), (Status.error .headerMismatch, 0x13#64), (Status.error .outOfMemory, 0x23#64),
        (Status.error .popFromEmptyStack, 0x33#64), (Status.error .notEnoughArgs, 0x43#64),
        (Status.error .unknownRegister, 0x53#64), (Status.error .unknownCommand, 0x63#64),
        (Status.error .noHalt, 0x73#64), (Status.error .badJumpAddress, 0x83#64),
        (Status.error .retWithoutCall, 0x93#64)] := by
  have h : (State.raised .retWithoutCall State.reset).status = .error .retWithoutCall := rfl
  rw [h]; decide

theorem wit_InTakesAndPushes :
    let room := { idleRun [] [] with params := tight, input := [5] }
    let full := { idleRun [1] [] with params := tight, input := [5] }
    room.input = 5 :: [] ∧ room.os.length ≠ room.params.opstackCap ∧ full.input = 5 :: [] ∧
      full.os.length = full.params.opstackCap ∧ (idleRun [] []).input = [] := by decide +kernel

theorem wit_InWaitsForHost :
    (machine [0x01] [] []).awaitsInput = true ∧ (machine [0x01] [] []).os.length ≠ referenceParams.opstackCap := by
  decide +kernel

theorem wit_OutPopsAndSends : (idleRun [1] []).os = 1 :: [] ∧ (idleRun [] []).os = [] := ⟨rfl, rfl⟩

theorem wit_OperandOrder :
    (Instr.and, andWord) ∈ [(Instr.add, F64.fadd), (Instr.sub, F64.fsub), (Instr.mul, F64.fmul), (Instr.div, F64.fdiv),
      (Instr.less, lessWord), (Instr.greater, greaterWord), (Instr.or, orWord), (Instr.and, andWord)] ∧ (idleRun [1, 2] []).os = 1 :: 2 :: [] :=
  ⟨by simp, rfl⟩

theorem wit_ArgumentCount :
    (∀ x ∈ [(Instr.and, 2), (Instr.not, 1)],
      x ∈ [(Instr.add, 2), (Instr.sub, 2), (Instr.mul, 2), (Instr.div, 2), (Instr.less, 2), (Instr.greater, 2),
        (Instr.or, 2), (Instr.and, 2), (Instr.sqrt, 1), (Instr.not, 1)]) ∧
      (idleRun [1] []).os.length < 2 ∧
      2 ≤ (idleRun [1, 2] []).os.length ∧ (idleRun [] []).os.length < 1 ∧ 1 ≤ (idleRun [1] []).os.length := by decide

theorem wit_UnaryOperatorsReplaceTop : (idleRun [1] []).os = 1 :: [] := rfl

theorem wit_LessAndGreater :
    (idleRun [1, 2] []).os = 1 :: 2 :: [] ∧ (idleRun [1] []).os.length < 2 ∧
      F64.isNaN 0x7FF0000000000001 = true ∧ F64.isNaN 0xFFFFFFFFFFFFFFFF = true := by decide +kernel

theorem wit_OrAndAnd :
    (idleRun [1, 2] []).os = 1 :: 2 :: [] ∧ (idleRun [] []).os.length < 2 ∧ F64.isNaN 0x7FF8000000000000 = true := by
  decide +kernel

theorem wit_NotNegates :
    let boolean := { idleRun [1] [] with params := { referenceParams with notMode := .boolean } }
    (idleRun [1] []).os = 1 :: [] ∧ (idleRun [1] []).params.notMode = .negate ∧ boolean.os = 1 :: [] ∧
      boolean.params.notMode = .boolean ∧ (idleRun [] []).os = [] := by decide +kernel

theorem wit_PopDiscardsTop : (idleRun [1] []).os = 1 :: [] ∧ (idleRun [] []).os = [] := ⟨rfl, rfl⟩

theorem wit_PopRegMovesTopToRegister :
    (idleRun [1] []).os = 1 :: [] ∧ 3 < (4 : Byte).toNat ∧ (3 : Byte).toNat ≤ 3 ∧ (idleRun [] []).os = [] := by decide

theorem wit_PushValPushesLiteral :
    let room := { idleRun [] [] with params := tight }
    let full := { idleRun [1] [] with params := tight }
    room.os.length ≠ room.params.opstackCap ∧ full.os.length = full.params.opstackCap := by decide

theorem wit_PushRegPushesCopy :
    let room := { idleRun [] [] with params := tight }
    let full := { idleRun [1] [] with params := tight }
    room.os.length ≠ room.params.opstackCap ∧ 3 < (4 : Byte).toNat ∧ (3 : Byte).toNat ≤ 3 ∧
      full.os.length = full.params.opstackCap := by decide

/-- Targets 39 = PLEN - 1 and 8 are in bounds, 40 = PLEN and 7 are not, and 7 is where header bytes may be executed. -/
theorem wit_JmpJumps :
    let open_ := { idleRun [] [] with params := { referenceParams with headerPolicy := .execute } }
    (idleRun [] []).InBounds ((idleRun [] []).ip + 9 + 22) ∧ ¬ (idleRun [] []).InBounds ((idleRun [] []).ip + 9 + 23) ∧
      (idleRun [] []).InBounds ((idleRun [] []).ip + 9 + 0xFFFFFFFFFFFFFFF7) ∧
      ¬ (idleRun [] []).InBounds ((idleRun [] []).ip + 9 + 0xFFFFFFFFFFFFFFF6) ∧
      open_.InBounds (open_.ip + 9 + 0xFFFFFFFFFFFFFFF6) := by decide +kernel

theorem wit_JifJumpsIfPositive :
    let checked := { idleRun [0] [] with params := { referenceParams with jifUntakenCheck := true } }
    (idleRun [1] []).os = 1 :: [] ∧ pos 1 = true ∧ (idleRun [1] []).InBounds ((idleRun [1] []).ip + 9 + 22) ∧
      pos 0 = false ∧ (idleRun [0] []).params.jifUntakenCheck = false ∧ checked.os = 0 :: [] ∧
      checked.InBounds (checked.ip + 9 + 22) ∧ checked.params.jifUntakenCheck = true ∧
      ¬ checked.InBounds (checked.ip + 9 + 23) ∧ (idleRun [] []).os = [] := by decide +kernel

theorem wit_CallPushesAndJumps :
    let room := { idleRun [] [] with params := tight }
    let full := { idleRun [] [9] with params := tight }
    room.cs.length ≠ room.params.callstackCap ∧ room.InBounds (room.ip + 9 + 22) ∧
      full.cs.length = full.params.callstackCap ∧ ¬ room.InBounds (room.ip + 9 + 23) := by decide +kernel

theorem wit_RetReturns : (idleRun [] [40]).cs = 40 :: [] ∧ (idleRun [] []).cs = [] := ⟨rfl, rfl⟩

theorem wit_UnnamedOpcodeRefuses : (idleRun [] []).pendingStarts = [] := rfl

theorem wit_PopPrimitives :
    (idleRun [1] [9]).os = 1 :: [] ∧ (idleRun [1] [9]).cs = 9 :: [] ∧ (idleRun [] []).os = [] ∧ (idleRun [] []).cs = [] :=
  ⟨rfl, rfl, rfl, rfl⟩

theorem wit_PushPrimitives :
    let room := { idleRun [] [] with params := tight }
    let full := { idleRun [1] [9] with params := tight }
    full.os.length = full.params.opstackCap ∧ room.os.length ≠ room.params.opstackCap ∧
      full.cs.length = full.params.callstackCap ∧ room.cs.length ≠ room.params.callstackCap := by decide

theorem wit_TargetComputation :
    (machine [0x0C, 0xEC, 0xFF, 0xFF, 0xFF, 0xFF, 0xFF, 0xFF, 0xFF] [] []).fetch = .ok (.jmp 0xFFFFFFFFFFFFFFEC) ∧
      Instr.jmp 0xFFFFFFFFFFFFFFEC ∈
        [Instr.jmp 0xFFFFFFFFFFFFFFEC, Instr.jif 0xFFFFFFFFFFFFFFEC, Instr.call 0xFFFFFFFFFFFFFFEC] ∧
      0 ≤ ((idleRun [] []).ip.toNat : Int) + 9 + (0xFFFFFFFFFFFFFFEF : Word).toInt ∧
      ((idleRun [] []).ip.toNat : Int) + 9 + (0x7FFFFFFFFFFFFFEE : Word).toInt < 2 ^ 63 ∧
      (0 : Nat) < 17 ∧ 17 ≤ (idleRun [] []).ip.toNat + 9 ∧ (idleRun [] []).ip.toNat + 9 < 2 ^ 64 :=
  ⟨rfl, by decide, by decide, by decide, by decide, by decide, by decide⟩

theorem wit_AssembledJumpReachesLabel :
    (idleRun [1] []).InBounds 39 ∧ (idleRun [1] []).InBounds 8 ∧ (idleRun [1] []).os = 1 :: [] ∧ pos 1 = true ∧
      (idleRun [1] []).cs.length ≠ (idleRun [1] []).params.callstackCap := by decide +kernel

theorem wit_SelfJumpLoopsForever :
    (machine [0x0C, 0xF7, 0xFF, 0xFF, 0xFF, 0xFF, 0xFF, 0xFF, 0xFF] [] []).status = .running ∧
      (machine [0x0C, 0xF7, 0xFF, 0xFF, 0xFF, 0xFF, 0xFF, 0xFF, 0xFF] [] []).fetch =
        .ok (.jmp (BitVec.ofNat 64 (2 ^ 64 - 9))) ∧
      (machine [0x0C, 0xF7, 0xFF, 0xFF, 0xFF, 0xFF, 0xFF, 0xFF, 0xFF] [] []).InBounds 8 :=
  ⟨rfl, rfl, by decide +kernel⟩

theorem wit_CallThenReturn :
    let room := { idleRun [] [] with params := tight }
    room.cs.length ≠ room.params.callstackCap ∧ room.InBounds (room.ip + 9 + 22) := by decide +kernel

theorem wit_MovesAreBitExact :
    let room := { idleRun [1] [] with params := tight }
    let empty := { idleRun [] [] with params := tight }
    (3 : Byte).toNat ≤ 3 ∧ room.os = 1 :: [] ∧ ([] : List Word).length ≠ room.params.opstackCap ∧
      empty.os.length ≠ empty.params.opstackCap := by decide

/-- A `pop rdx` completes and names neither of the registers whose value it keeps. -/
theorem wit_UnwrittenRegisterReadsResetNan :
    (image 0).headerAccepted { State.reset with params := tight }.params = true ∧ (3 : Byte).toNat ≤ 3 ∧
      0 < tight.opstackCap ∧ regName 3 = some .rdx ∧ regName 0 = some .rax ∧
      (idleRun [] []).regs.get .rdx = (idleRun [] []).params.resetNan ∧
      (idleRun [] []).os.length ≠ (idleRun [] []).params.opstackCap := by decide +kernel

theorem wit_UnwrittenRegisterReadsResetNan_step :
    let s := machine [0x09, 0x03] [1] []
    s.status = .running ∧ s.regs.get .rax = s.params.resetNan ∧ (∃ t, step s = .next t ∧ t.Completed) ∧
      ∀ reg, s.fetch = .ok (.popReg reg) → regName reg ≠ some .rax := by
  refine ⟨rfl, rfl, ⟨_, rfl, .inl rfl⟩, fun reg h => ?_⟩
  have hf : (machine [0x09, 0x03] [1] []).fetch = .ok (.popReg 3) := rfl
  rw [hf] at h
  cases h
  decide

theorem wit_NanResultsAreNanOf :
    F64.isNaN (F64.fadd 0x7FF8000000000000 0) = true ∧ F64.isNaN (F64.fsqrt 0xBFF0000000000000) = true := by
  have h1 : F64.fadd 0x7FF8000000000000 0 = F64.nanOf (.add 0x7FF8000000000000 0) := by rfl
  have h2 : F64.fsqrt 0xBFF0000000000000 = F64.nanOf (.sqrt 0xBFF0000000000000) := by rfl
  rw [h1, h2, F64.nanOf, F64.nanOf]
  constructor <;> split
  · assumption
  · exact F64.isNaN_or_quiet _
  · assumption
  · exact F64.isNaN_or_quiet _

theorem wit_SumsOfZerosAndInfinities :
    F64.isFinite 0x7FEFFFFFFFFFFFFF = true ∧ F64.isInf 0xFFF0000000000000 = true ∧ F64.isFinite 0 = true ∧
      F64.isNaN (F64.fadd 0x3FF0000000000000 0x3FF0000000000000) = false := by decide +kernel

theorem wit_ProductsAndQuotients :
    F64.isNaN (F64.fmul 0x3FF0000000000000 0xBFF0000000000000) = false ∧
      F64.isNaN (F64.fdiv 0x3FF0000000000000 0xBFF0000000000000) = false ∧
      F64.isNaN 0x7FF0000000000000 = false ∧ F64.isZero 0x7FF0000000000000 = false ∧
      F64.isZero 0x8000000000000000 = true ∧ F64.isFinite 0 = true ∧ F64.isInf 0xFFF0000000000000 = true := by
  decide +kernel

theorem wit_RootsOfZerosAndInfinity :
    F64.isZero 0x8000000000000000 = true ∧ F64.isFinite 1 = true ∧ F64.isZero 1 = false ∧ F64.sign 1 = false ∧
      F64.isFinite 0x7FEFFFFFFFFFFFFF = true := by decide +kernel

theorem wit_RoundsOnce :
    F64.isFinite 1 = true ∧ F64.isFinite 0xFFEFFFFFFFFFFFFF = true ∧ F64.isZero 1 = false ∧ F64.sign 1 = false := by
  decide +kernel

theorem wit_OrderedComparisons :
    F64.isNaN 0x7FF8000000000000 = true ∧ F64.isFinite 1 = true ∧ F64.isFinite 0x8000000000000000 = true ∧
      F64.isNaN 0x7FF0000000000000 = false ∧ (0x7FF0000000000000 : Word) ≠ 0xFFF0000000000000 := by decide +kernel

theorem wit_TruthValues :
    lessWord 1 2 ∈ [lessWord 1 2, greaterWord 1 2, orWord 1 2, andWord 1 2] ∧ (idleRun [1] []).os = 1 :: [] ∧
      (idleRun [1] []).InBounds ((idleRun [1] []).ip + 9 + 22) := by decide +kernel

end Sys2Proof.Tests
end

section
/-! SUPPORT. Register access (10_state.md R24): which instructions write a register, and which depend on one. -/

namespace Sys2Proof.Machine

/-! ### The remaining cases of the shared operations -/

theorem popCs_nil {s : State} (h : s.cs = []) (next : Word → State → Result) :
    popCs s next = raise .retWithoutCall s := by
  simp [popCs, h]

theorem takeIn_nil {s : State} (h : s.input = []) (next : Word → State → Result) : takeIn s next = .next s := by
  simp [takeIn, h]

theorem takeIn_cons {s : State} {v : Word} {rest : List Word} (h : s.input = v :: rest)
    (next : Word → State → Result) : takeIn s next = next v { s with input := rest, taken := s.taken + 1 } := by
  simp [takeIn, h]

/-! ### Only POP_REG writes a register -/

/-- An error ends the run (R262). -/
theorem State.not_completed_raised (s : State) (k : ErrorKind) : ¬ (s.raised k).Completed := by
  simp [State.Completed]

/-- The unnamed opcode ends the run (R261). -/
theorem State.not_completed_refuse (s : State) : ¬ s.refuse.Completed := by
  simp [State.Completed]

theorem unaryOp_keeps_regs {f : Word → Word} {s t : State} (h : unaryOp f s = .next t) (ht : t.Completed) :
    t.regs = s.regs := by
  obtain ⟨-, rfl⟩ | ⟨x, rest, -, rfl⟩ := unaryOp_eq_next.1 h
  · exact absurd ht (State.not_completed_raised _ _)
  · rfl

theorem binaryOp_keeps_regs {f : Word → Word → Word} {s t : State} (h : binaryOp f s = .next t) (ht : t.Completed) :
    t.regs = s.regs := by
  obtain ⟨-, rfl⟩ | ⟨a, b, rest, -, rfl⟩ := binaryOp_eq_next.1 h
  · exact absurd ht (State.not_completed_raised _ _)
  · rfl

/-- An instruction other than POP_REG that completes leaves the register file as it is: it ends in an error, or it updates
other fields only. -/
theorem exec_keeps_regs {i : Instr} {s t : State} (h : exec i s = .next t) (ht : t.Completed)
    (hi : ∀ reg, i ≠ .popReg reg) : t.regs = s.regs := by
  cases i with
  | halt => cases h; rfl
  | in_ =>
    obtain ⟨-, rfl⟩ | ⟨v, rest, -, ⟨-, rfl⟩ | ⟨-, rfl⟩⟩ := execIn_eq_next.1 h
    · rfl
    · exact absurd ht (State.not_completed_raised _ _)
    · rfl
  | out =>
    obtain ⟨-, rfl⟩ | ⟨v, rest, -, rfl⟩ := execOut_eq_next.1 h
    · exact absurd ht (State.not_completed_raised _ _)
    · rfl
  | add | sub | mul | div | less | greater | or | and => exact binaryOp_keeps_regs h ht
  | sqrt | not => exact unaryOp_keeps_regs h ht
  | pop =>
    obtain ⟨-, rfl⟩ | ⟨v, rest, -, rfl⟩ := execPop_eq_next.1 h
    · exact absurd ht (State.not_completed_raised _ _)
    · rfl
  | popReg reg => exact absurd rfl (hi reg)
  | pushVal imm =>
    obtain ⟨-, rfl⟩ | ⟨-, rfl⟩ := execPushVal_eq_next.1 h
    · exact absurd ht (State.not_completed_raised _ _)
    · rfl
  | pushReg reg =>
    obtain ⟨-, rfl⟩ | ⟨j, -, ⟨-, rfl⟩ | ⟨-, rfl⟩⟩ := execPushReg_eq_next.1 h
    · exact absurd ht (State.not_completed_raised _ _)
    · exact absurd ht (State.not_completed_raised _ _)
    · rfl
  | jmp disp =>
    obtain ⟨-, rfl⟩ | ⟨-, rfl⟩ := jumpTo_eq_next.1 h
    · exact absurd ht (State.not_completed_raised _ _)
    · rfl
  | jif disp =>
    obtain ⟨-, rfl⟩ | ⟨v, rest, -, ⟨-, -, rfl⟩ | ⟨-, -, rfl⟩ | ⟨-, -, rfl⟩⟩ := execJif_eq_next.1 h
    · exact absurd ht (State.not_completed_raised _ _)
    · exact absurd ht (State.not_completed_raised _ _)
    · rfl
    · rfl
  | call disp =>
    obtain ⟨-, rfl⟩ | ⟨-, ⟨-, rfl⟩ | ⟨-, rfl⟩⟩ := execCall_eq_next.1 h
    · exact absurd ht (State.not_completed_raised _ _)
    · exact absurd ht (State.not_completed_raised _ _)
    · rfl
  | ret =>
    obtain ⟨-, rfl⟩ | ⟨r, rest, -, rfl⟩ := execRet_eq_next.1 h
    · exact absurd ht (State.not_completed_raised _ _)
    · rfl
  | rsvd22 => cases h; exact absurd ht (State.not_completed_refuse s)

/-! ### Only PUSH_REG reads a register

Each operation is shown not to depend on the register file, given that what follows it does not; the instructions are then
put together as their definitions put the operations together. -/

/-- The state with another register file. -/
def State.withRegs (r : Regs) (s : State) : State := { s with regs := r }

/-- Two outcomes are the same but for the register file, which is `r` in the comparison. -/
def SameButRegs (r : Regs) (x y : Result) : Prop := mapNext (State.withRegs r) x = mapNext (State.withRegs r) y

variable {r : Regs}

/-- What an error leaves in the registers does not depend on what they held (R262). -/
theorem sameButRegs_raise (k : ErrorKind) (s : State) : SameButRegs r (raise k (s.withRegs r)) (raise k s) := rfl

theorem sameButRegs_pushOs (v : Word) (s : State) {next : State → Result}
    (h : ∀ s, SameButRegs r (next (s.withRegs r)) (next s)) :
    SameButRegs r (pushOs v (s.withRegs r) next) (pushOs v s next) := by
  by_cases hc : s.os.length = s.params.opstackCap
  · rw [pushOs_full hc, pushOs_full (s := s.withRegs r) hc]
    exact sameButRegs_raise _ s
  · rw [pushOs_room hc, pushOs_room (s := s.withRegs r) hc]
    exact h (s.setOs (v :: s.os))

theorem sameButRegs_popOs (s : State) {next : Word → State → Result}
    (h : ∀ v s, SameButRegs r (next v (s.withRegs r)) (next v s)) :
    SameButRegs r (popOs (s.withRegs r) next) (popOs s next) := by
  cases ho : s.os with
  | nil =>
    rw [popOs_nil ho, popOs_nil (s := s.withRegs r) ho]
    exact sameButRegs_raise _ s
  | cons v rest =>
    rw [popOs_cons ho, popOs_cons (s := s.withRegs r) ho]
    exact h v (s.setOs rest)

theorem sameButRegs_unaryOp (f : Word → Word) (s : State) :
    SameButRegs r (unaryOp f (s.withRegs r)) (unaryOp f s) := by
  cases ho : s.os with
  | nil =>
    have hs : s.os.length < 1 := by simp [ho]
    rw [unaryOp_few hs, unaryOp_few (s := s.withRegs r) hs]
    exact sameButRegs_raise _ s
  | cons x rest =>
    rw [unaryOp_cons ho, unaryOp_cons (s := s.withRegs r) ho]
    rfl

theorem sameButRegs_binaryOp (f : Word → Word → Word) (s : State) :
    SameButRegs r (binaryOp f (s.withRegs r)) (binaryOp f s) := by
  by_cases hs : s.os.length < 2
  · rw [binaryOp_few hs, binaryOp_few (s := s.withRegs r) hs]
    exact sameButRegs_raise _ s
  · match ho : s.os, hs with
    | b :: a :: rest, _ =>
      rw [binaryOp_cons ho, binaryOp_cons (s := s.withRegs r) ho]
      rfl
    | [_], hs => exact absurd (by simp) hs
    | [], hs => exact absurd (by simp) hs

theorem sameButRegs_pushCs (v : Word) (s : State) {next : State → Result}
    (h : ∀ s, SameButRegs r (next (s.withRegs r)) (next s)) :
    SameButRegs r (pushCs v (s.withRegs r) next) (pushCs v s next) := by
  by_cases hc : s.cs.length = s.params.callstackCap
  · rw [pushCs_full hc, pushCs_full (s := s.withRegs r) hc]
    exact sameButRegs_raise _ s
  · rw [pushCs_room hc, pushCs_room (s := s.withRegs r) hc]
    exact h (s.setCs (v :: s.cs))

theorem sameButRegs_popCs (s : State) {next : Word → State → Result}
    (h : ∀ v s, SameButRegs r (next v (s.withRegs r)) (next v s)) :
    SameButRegs r (popCs (s.withRegs r) next) (popCs s next) := by
  cases hc : s.cs with
  | nil =>
    rw [popCs_nil hc, popCs_nil (s := s.withRegs r) hc]
    exact sameButRegs_raise _ s
  | cons v rest =>
    rw [popCs_cons hc, popCs_cons (s := s.withRegs r) hc]
    exact h v (s.setCs rest)

theorem sameButRegs_takeIn (s : State) {next : Word → State → Result}
    (h : ∀ v s, SameButRegs r (next v (s.withRegs r)) (next v s)) :
    SameButRegs r (takeIn (s.withRegs r) next) (takeIn s next) := by
  cases hin : s.input with
  | nil =>
    rw [takeIn_nil hin, takeIn_nil (s := s.withRegs r) hin]
    rfl
  | cons v rest =>
    rw [takeIn_cons hin, takeIn_cons (s := s.withRegs r) hin]
    exact h v { s with input := rest, taken := s.taken + 1 }

/-- The register check reads the register byte, not the register. -/
theorem sameButRegs_withReg (reg : Byte) (s : State) {next next' : RegName → Result}
    (h : ∀ j, SameButRegs r (next j) (next' j)) :
    SameButRegs r (withReg reg (s.withRegs r) next) (withReg reg s next') := by
  by_cases hr : RegByteOk reg
  · obtain ⟨j, hj⟩ := regName_isSome hr
    rw [withReg_some hj, withReg_some hj]
    exact h j
  · rw [withReg_none hr, withReg_none hr]
    exact sameButRegs_raise _ s

theorem sameButRegs_checkTarget (d : Word) (s : State) {next next' : Result} (h : SameButRegs r next next') :
    SameButRegs r (checkTarget d (s.withRegs r) next) (checkTarget d s next') := by
  have hok : (s.withRegs r).targetOk d = s.targetOk d := rfl
  rw [checkTarget, checkTarget, hok]
  split
  · exact h
  · exact sameButRegs_raise _ s

theorem sameButRegs_jumpTo (d : Word) (s : State) : SameButRegs r (jumpTo d (s.withRegs r)) (jumpTo d s) :=
  sameButRegs_checkTarget d s rfl

/-- JIF branches on the popped value and a parameter. -/
theorem sameButRegs_execJif (disp : Word) (s : State) :
    SameButRegs r (execJif disp (s.withRegs r)) (execJif disp s) := by
  refine sameButRegs_popOs s fun v s => ?_
  have hj : (s.withRegs r).params.jifUntakenCheck = s.params.jifUntakenCheck := rfl
  rw [hj]
  split
  · exact sameButRegs_jumpTo _ s
  · split
    · exact sameButRegs_checkTarget _ s rfl
    · rfl

/-- The outcome of an instruction other than PUSH_REG does not depend on the register file. -/
theorem sameButRegs_exec {i : Instr} (s : State) (hi : ∀ reg, i ≠ .pushReg reg) :
    SameButRegs r (exec i (s.withRegs r)) (exec i s) := by
  cases i with
  | halt => rfl
  | in_ =>
    simp only [exec, execIn]
    exact sameButRegs_takeIn s fun v s => sameButRegs_pushOs v s fun _ => rfl
  | out =>
    simp only [exec, execOut]
    exact sameButRegs_popOs s fun _ _ => rfl
  | add | sub | mul | div | less | greater | or | and => exact sameButRegs_binaryOp _ s
  | sqrt | not => exact sameButRegs_unaryOp _ s
  | pop =>
    simp only [exec, execPop]
    exact sameButRegs_popOs s fun _ _ => rfl
  | popReg reg =>
    simp only [exec, execPopReg]
    exact sameButRegs_withReg reg s fun _ => sameButRegs_popOs s fun _ _ => rfl
  | pushVal imm =>
    simp only [exec, execPushVal]
    exact sameButRegs_pushOs imm s fun _ => rfl
  | pushReg reg => exact absurd rfl (hi reg)
  | jmp disp => exact sameButRegs_jumpTo _ s
  | jif disp => exact sameButRegs_execJif disp s
  | call disp =>
    simp only [exec, execCall]
    exact sameButRegs_pushCs _ s fun s => sameButRegs_jumpTo _ s
  | ret =>
    simp only [exec, execRet]
    exact sameButRegs_popCs s fun _ _ => rfl
  | rsvd22 => rfl

/-! ### Every register can be written and read -/

/-- Every register has a register byte (R74). -/
theorem exists_regName_eq (j : RegName) : ∃ reg, regName reg = some j := by
  cases j with
  | rax => exact ⟨0, rfl⟩
  | rbx => exact ⟨1, rfl⟩
  | rcx => exact ⟨2, rfl⟩
  | rdx => exact ⟨3, rfl⟩

theorem exec_popReg_cons {reg : Byte} {j : RegName} {s : State} {v : Word} {rest : List Word}
    (hr : regName reg = some j) (ho : s.os = v :: rest) :
    exec (.popReg reg) s = .next { s with os := rest, regs := s.regs.set j v, ip := s.nextIp .FR } :=
  execPopReg_eq_next.2 (.inr ⟨j, hr, .inr ⟨v, rest, ho, rfl⟩⟩)

theorem exec_pushReg_room {reg : Byte} {j : RegName} {s : State} (hr : regName reg = some j)
    (hc : s.os.length ≠ s.params.opstackCap) :
    exec (.pushReg reg) s = .next { s with os := s.regs.get j :: s.os, ip := s.nextIp .FR } :=
  execPushReg_eq_next.2 (.inr ⟨j, hr, .inr ⟨hc, rfl⟩⟩)

end Sys2Proof.Machine

namespace Sys2Proof.Proofs

open Sys2Proof.Machine

/-- Settles O18: a case analysis over the instructions for the writes, non-interference of each shared operation for the
reads, and the completing cases of POP_REG and PUSH_REG for the access itself. -/
theorem registersOnlyThroughMoves : Obligations.RegistersOnlyThroughMoves := by
  refine ⟨fun i s t _ h ht hi => exec_keeps_regs h ht hi, fun i s r hi => sameButRegs_exec s hi, fun j => ?_⟩
  obtain ⟨reg, hr⟩ := exists_regName_eq j
  refine ⟨reg, hr, fun s v rest ho => ?_, fun s hc => ⟨_, exec_pushReg_room hr hc, rfl⟩⟩
  exact ⟨_, exec_popReg_cons hr ho, Regs.get_set_same _ _ _, fun j' hj => Regs.get_set_other _ hj v⟩

end Sys2Proof.Proofs
end

section
/-! SUPPORT. Displacements and targets (30_encoding.md R70, R76): where a fetched instruction's operand bytes stand in the
buffer, and the arithmetic of a target. -/

namespace Sys2Proof

/-! ### Decoding read backwards -/

/-- What the operand decoder of a tag answers has that tag, and its operand bytes stand at the front (R70, R73). -/
theorem decodeOperand_eq_ok {e : Endian} {t : Tag} {bs rest : List Byte} {i : Instr}
    (h : decodeOperand e t bs = .ok (i, rest)) : i.tag = t ∧ bs = i.operandBytes e ++ rest := by
  cases t with
  | popReg | pushReg =>
    obtain ⟨reg, rfl, -, rfl⟩ := decodeReg_eq_ok.1 h
    exact ⟨rfl, rfl⟩
  | pushVal | jmp | jif | call =>
    obtain ⟨w, rfl, rfl⟩ := decodeWord_eq_ok.1 h
    exact ⟨rfl, rfl⟩
  | halt | in_ | out | add | sub | mul | div | sqrt | pop | ret | less | greater | or | and | not | rsvd22 =>
    cases h
    exact ⟨rfl, rfl⟩

/-- Bytes that decode are the encoding of the instruction and the bytes after it (R70). -/
theorem eq_encode_append_of_decode {p : Params} {bs rest : List Byte} {i : Instr}
    (h : decode p bs = .ok (i, rest)) : bs = encode p i ++ rest := by
  cases bs with
  | nil => cases h
  | cons b bs =>
    cases ht : p.tagOf b with
    | none => simp [decode, ht] at h
    | some t =>
      simp only [decode, ht] at h
      obtain ⟨rfl, rfl⟩ := decodeOperand_eq_ok h
      rw [encode, Params.opcodeByte_of_tagOf ht, List.cons_append]

end Sys2Proof

namespace Sys2Proof.Machine

/-! ### The operand bytes in the buffer -/

/-- Reading inside a longer read: the bytes from `k` bytes on are those of the long read without its first `k`. -/
theorem Image.bytesFrom_add (img : Image) (a : Nat) {k m n : Nat} (h : k + m ≤ n) :
    img.bytesFrom (a + k) m = ((img.bytesFrom a n).drop k).take m := by
  refine List.ext_getElem ?_ fun j h₁ h₂ => ?_
  · simp only [Image.bytesFrom_length, List.length_take, List.length_drop]
    omega
  · simp only [Image.bytesFrom_getElem, List.getElem_take, List.getElem_drop, Nat.add_assoc]

/-- The operand bytes of a fetched instruction are those of the buffer after the opcode byte (R70, R108). -/
theorem State.operandBytes_of_fetch {s : State} {i : Instr} (h : s.fetch = .ok i) :
    i.operandBytes s.params.endian = s.prog.bytesFrom (s.ip.toNat + 1) i.tag.format.operandLen := by
  obtain ⟨rest, hd⟩ := State.fetch_eq_ok.1 h
  have hbytes : s.prog.bytesFrom s.ip.toNat maxLength = encode s.params i ++ rest := eq_encode_append_of_decode hd
  have hlen : 1 + i.tag.format.operandLen ≤ maxLength := Format.length_le i.tag.format
  rw [Image.bytesFrom_add _ _ hlen, hbytes, encode, List.cons_append, List.drop_succ_cons, List.drop_zero,
    ← Instr.operandBytes_length s.params.endian i, List.take_left]

/-- So an instruction whose operand is one field carries the word of the eight bytes there (R53, R76). -/
theorem State.field_of_fetch {s : State} {i : Instr} {w : Word} (h : s.fetch = .ok i)
    (hi : i.operandBytes s.params.endian = bytesOfWord s.params.endian w) :
    w = wordOfBytes s.params.endian (s.prog.bytesFrom (s.ip.toNat + 1) 8) := by
  have hlen : i.tag.format.operandLen = 8 := by rw [← Instr.operandBytes_length s.params.endian, hi, bytesOfWord_length]
  rw [← hlen, ← State.operandBytes_of_fetch h, hi, wordOfBytes_bytesOfWord]

/-! ### The arithmetic of a target -/

theorem State.target_toNat (s : State) (disp : Word) :
    (s.target disp).toNat = (s.ip.toNat + 9 + disp.toNat) % 2 ^ 64 := by
  rw [State.target_eq, BitVec.toNat_add, BitVec.toNat_add, Nat.mod_add_mod]
  rfl

/-- The signed sum in range is the target: the two readings of the displacement differ by 0 or 2^64, which the target's modulus
does not see (R76). -/
theorem State.target_toNat_signed (s : State) (disp : Word) (h₀ : 0 ≤ (s.ip.toNat : Int) + 9 + disp.toInt)
    (h₁ : (s.ip.toNat : Int) + 9 + disp.toInt < 2 ^ 63) :
    ((s.target disp).toNat : Int) = (s.ip.toNat : Int) + 9 + disp.toInt := by
  have hsum := State.target_toNat s disp
  have hdisp : disp.toInt = disp.toNat ∨ disp.toInt = disp.toNat - 2 ^ 64 := by
    rw [BitVec.toInt_eq_toNat_cond]
    split
    · exact .inl rfl
    · exact .inr rfl
  omega

theorem State.target_toNat_back (s : State) {k : Nat} (hpos : 0 < k) (hk : k ≤ s.ip.toNat + 9)
    (hend : s.ip.toNat + 9 < 2 ^ 64) :
    (s.target (BitVec.ofNat 64 (2 ^ 64 - k))).toNat = s.ip.toNat + 9 - k := by
  rw [State.target_toNat, BitVec.toNat_ofNat]
  omega

end Sys2Proof.Machine

namespace Sys2Proof.Proofs

open Sys2Proof.Machine

/-- Settles O45: the operand bytes of the three jumps are the field of the displacement, and the rest is the arithmetic of a
target modulo 2^64. -/
theorem targetComputation : Obligations.TargetComputation := by
  refine ⟨fun s i disp hi hf => State.field_of_fetch hf ?_, State.target_toNat, State.target_toNat_signed,
    fun s _ => State.target_toNat_back s⟩
  simp only [List.mem_cons, List.not_mem_nil, or_false] at hi
  obtain rfl | rfl | rfl := hi <;> rfl

end Sys2Proof.Proofs
end

section
/-! SUPPORT. The effects of one step of a run (40_loop.md R101, R108, R111): what running off the buffer does, and what the
instructions may do to the buffer, the ports and the registers. -/

namespace Sys2Proof.Machine

/-! ### Running off the end of the buffer -/

theorem State.fetchBytes_eq_nil {s : State} (h : s.prog.len.toNat ≤ s.ip.toNat) : s.fetchBytes = [] := by
  rw [← List.length_eq_zero_iff, State.fetchBytes_length, Nat.sub_eq_zero_of_le h, Nat.min_zero]

theorem State.fetch_endOfBuffer {s : State} (h : s.prog.len.toNat ≤ s.ip.toNat) : s.fetch = .error .endOfBuffer := by
  rw [State.fetch_eq_error, State.fetchBytes_eq_nil h, decode]

theorem step_fetch_error {s : State} {e : DecodeError} (hrun : s.status = .running) (he : s.fetch = .error e) :
    step s = raise (decodeErrorKind e) s := by
  rw [step_running hrun, he]

theorem step_fetch_ok {s : State} {i : Instr} (hrun : s.status = .running) (hi : s.fetch = .ok i) :
    step s = exec i s := by
  rw [step_running hrun, hi]

/-! ### The buffer and the ports -/

/-- What an instruction may do to the buffer and the ports (R111): the buffer stays, only OUT sends, and one value; only IN
takes, and one value. -/
structure PortEffect (i : Instr) (s t : State) : Prop where
  prog : t.prog = s.prog
  output : t.output = s.output ∨ ∃ v, i = .out ∧ t.output = s.output ++ [v]
  input : (t.input = s.input ∧ t.taken = s.taken) ∨ ∃ v, i = .in_ ∧ s.input = v :: t.input ∧ t.taken = s.taken + 1

variable {s t : State}

/-- An update that leaves the buffer and both ports alone is allowed to every instruction. -/
theorem PortEffect.silent {i : Instr} (hp : t.prog = s.prog) (ho : t.output = s.output) (hi : t.input = s.input)
    (ht : t.taken = s.taken) : PortEffect i s t :=
  ⟨hp, .inl ho, .inl ⟨hi, ht⟩⟩

theorem execIn_portEffect (h : execIn s = .next t) : PortEffect .in_ s t := by
  obtain ⟨-, rfl⟩ | ⟨v, rest, hv, ⟨-, rfl⟩ | ⟨-, rfl⟩⟩ := execIn_eq_next.1 h
  · exact .silent rfl rfl rfl rfl
  · exact ⟨rfl, .inl rfl, .inr ⟨v, rfl, hv, rfl⟩⟩
  · exact ⟨rfl, .inl rfl, .inr ⟨v, rfl, hv, rfl⟩⟩

theorem execOut_portEffect (h : execOut s = .next t) : PortEffect .out s t := by
  obtain ⟨-, rfl⟩ | ⟨v, rest, -, rfl⟩ := execOut_eq_next.1 h
  · exact .silent rfl rfl rfl rfl
  · exact ⟨rfl, .inr ⟨v, rfl, rfl⟩, .inl ⟨rfl, rfl⟩⟩

/-- IN and OUT use their port; every other instruction ends in an error or updates `ip`, the registers, the stacks or STATUS
only. -/
theorem exec_portEffect {i : Instr} (h : exec i s = .next t) : PortEffect i s t := by
  cases i with
  | in_ => exact execIn_portEffect h
  | out => exact execOut_portEffect h
  | halt | rsvd22 => cases h; exact .silent rfl rfl rfl rfl
  | add | sub | mul | div | less | greater | or | and =>
    obtain ⟨-, rfl⟩ | ⟨a, b, rest, -, rfl⟩ := binaryOp_eq_next.1 h <;> exact .silent rfl rfl rfl rfl
  | sqrt | not => obtain ⟨-, rfl⟩ | ⟨x, rest, -, rfl⟩ := unaryOp_eq_next.1 h <;> exact .silent rfl rfl rfl rfl
  | pop => obtain ⟨-, rfl⟩ | ⟨v, rest, -, rfl⟩ := execPop_eq_next.1 h <;> exact .silent rfl rfl rfl rfl
  | popReg reg =>
    obtain ⟨-, rfl⟩ | ⟨j, -, ⟨-, rfl⟩ | ⟨v, rest, -, rfl⟩⟩ := execPopReg_eq_next.1 h <;> exact .silent rfl rfl rfl rfl
  | pushVal imm => obtain ⟨-, rfl⟩ | ⟨-, rfl⟩ := execPushVal_eq_next.1 h <;> exact .silent rfl rfl rfl rfl
  | pushReg reg =>
    obtain ⟨-, rfl⟩ | ⟨j, -, ⟨-, rfl⟩ | ⟨-, rfl⟩⟩ := execPushReg_eq_next.1 h <;> exact .silent rfl rfl rfl rfl
  | jmp disp => obtain ⟨-, rfl⟩ | ⟨-, rfl⟩ := jumpTo_eq_next.1 h <;> exact .silent rfl rfl rfl rfl
  | jif disp =>
    obtain ⟨-, rfl⟩ | ⟨v, rest, -, ⟨-, -, rfl⟩ | ⟨-, -, rfl⟩ | ⟨-, -, rfl⟩⟩ := execJif_eq_next.1 h <;>
      exact .silent rfl rfl rfl rfl
  | call disp =>
    obtain ⟨-, rfl⟩ | ⟨-, ⟨-, rfl⟩ | ⟨-, rfl⟩⟩ := execCall_eq_next.1 h <;> exact .silent rfl rfl rfl rfl
  | ret => obtain ⟨-, rfl⟩ | ⟨r, rest, -, rfl⟩ := execRet_eq_next.1 h <;> exact .silent rfl rfl rfl rfl

/-! ### The registers -/

/-- A POP_REG that completes writes the register it names, and no other (R183). -/
theorem execPopReg_regs {reg : Byte} (h : execPopReg reg s = .next t) (ht : t.Completed) :
    ∃ j v, regName reg = some j ∧ t.regs = s.regs.set j v := by
  obtain ⟨-, rfl⟩ | ⟨j, hj, ⟨-, rfl⟩ | ⟨v, rest, -, rfl⟩⟩ := execPopReg_eq_next.1 h
  · exact absurd ht (State.not_completed_raised _ _)
  · exact absurd ht (State.not_completed_raised _ _)
  · exact ⟨j, v, hj, rfl⟩

/-- An instruction that completes leaves the register file as it is, unless it is a POP_REG. -/
theorem exec_regs {i : Instr} (h : exec i s = .next t) (ht : t.Completed) :
    t.regs = s.regs ∨ ∃ reg j v, i = .popReg reg ∧ regName reg = some j ∧ t.regs = s.regs.set j v := by
  by_cases hi : ∃ reg, i = .popReg reg
  · obtain ⟨reg, rfl⟩ := hi
    obtain ⟨j, v, hj, hv⟩ := execPopReg_regs h ht
    exact .inr ⟨reg, j, v, rfl, hj, hv⟩
  · exact .inl (exec_keeps_regs h ht (not_exists.1 hi))

end Sys2Proof.Machine

namespace Sys2Proof.Proofs

open Sys2Proof.Machine

/-- Settles O16: an erroring fetch changes no port and completes nothing; a fetched instruction has the port effect and the
register effect of its own rule. -/
theorem stepHasNoOtherSideEffect : Obligations.StepHasNoOtherSideEffect := by
  intro s t hrun hstep
  cases hf : s.fetch with
  | error e =>
    rw [step_fetch_error hrun hf, raise_eq_next] at hstep
    subst hstep
    exact ⟨rfl, fun ht => absurd ht (State.not_completed_raised _ _), .inl rfl, .inl ⟨rfl, rfl⟩⟩
  | ok i =>
    rw [step_fetch_ok hrun hf] at hstep
    obtain ⟨hprog, hout, hin⟩ := exec_portEffect hstep
    simp only [Except.ok.injEq]
    exact ⟨hprog, exec_regs hstep, hout, hin⟩

/-- Settles O5: with no byte left there is nothing to decode, and the fetch error of an empty fetch is NoHalt. -/
theorem fetchPastEndRaisesNoHalt : Obligations.FetchPastEndRaisesNoHalt := by
  intro s hrun hend
  refine ⟨State.fetchBytes_eq_nil hend, ?_⟩
  rw [step_fetch_error hrun (State.fetch_endOfBuffer hend)]
  exact errsWith_raise .noHalt s

end Sys2Proof.Proofs
end

section
/-! SUPPORT. The two-operand instructions (42_arithmetic.md R152): which word function each one applies, and the state after it
has two operands. -/

namespace Sys2Proof.Machine

/-- Each two-operand instruction is `binaryOp` of its own word function (R155 to R158, R232 to R235). -/
theorem exec_eq_binaryOp {i : Instr} {f : Word → Word → Word}
    (hi : (i, f) ∈ [(Instr.add, F64.fadd), (.sub, F64.fsub), (.mul, F64.fmul), (.div, F64.fdiv),
      (.less, lessWord), (.greater, greaterWord), (.or, orWord), (.and, andWord)]) (s : State) :
    exec i s = binaryOp f s := by
  simp only [List.mem_cons, List.not_mem_nil, or_false, Prod.mk.injEq] at hi
  obtain ⟨rfl, rfl⟩ | ⟨rfl, rfl⟩ | ⟨rfl, rfl⟩ | ⟨rfl, rfl⟩ | ⟨rfl, rfl⟩ | ⟨rfl, rfl⟩ | ⟨rfl, rfl⟩ | ⟨rfl, rfl⟩ := hi <;>
    rfl

/-- On two operands only the stack and `ip` change; the instruction is one byte long (R70, R152). -/
theorem binaryOp_cons_frame (f : Word → Word → Word) {s : State} {a b : Word} {rest : List Word}
    (h : s.os = b :: a :: rest) : binaryOp f s = .next { s with os := f a b :: rest, ip := s.ip + 1 } :=
  binaryOp_cons h

end Sys2Proof.Machine

namespace Sys2Proof.Proofs

open Sys2Proof.Machine

/-- Settles O28: the eight instructions share one two-operand operation, which applies its function to the second value and
the top, in this order. -/
theorem operandOrder : Obligations.OperandOrder := by
  intro i f hi s a b rest hos
  rw [exec_eq_binaryOp hi]
  exact binaryOp_cons_frame f hos

end Sys2Proof.Proofs
end

section
/-! SUPPORT. POP (43_stack.md R181): the state after it on a stack with a value, and its error on an empty one. -/

namespace Sys2Proof.Machine

/-- Only the stack and `ip` change; the instruction is one byte long (R70). -/
theorem exec_pop_cons {s : State} {v : Word} {rest : List Word} (h : s.os = v :: rest) :
    exec .pop s = .next { s with os := rest, ip := s.ip + 1 } :=
  execPop_eq_next.2 (.inr ⟨v, rest, h, rfl⟩)

theorem exec_pop_nil {s : State} (h : s.os = []) : exec .pop s = raise .popFromEmptyStack s :=
  execPop_eq_next.2 (.inl ⟨h, rfl⟩)

end Sys2Proof.Machine

namespace Sys2Proof.Proofs

open Sys2Proof.Machine

/-- Settles O34: POP has no operand bytes, and its two cases are those of `pop_os()`: the value goes and `ip` advances, or
the error is raised. -/
theorem popDiscardsTop : Obligations.PopDiscardsTop := by
  refine fun s => ⟨rfl, fun v rest hos => exec_pop_cons hos, fun hos => ?_⟩
  rw [exec_pop_nil hos]
  exact errsWith_raise .popFromEmptyStack s

end Sys2Proof.Proofs
end

section
/-! SUPPORT. Decoding and encoding undo each other (30_encoding.md R70 to R78), and which error each check of a fetch raises
(40_loop.md R101 to R103, R108, the spec's decisions D8 and D26). -/

namespace Sys2Proof

/-! ### Round trips -/

/-- The operand bytes of a well-formed instruction decode to it (R70, R73). -/
theorem decodeOperand_operandBytes {i : Instr} (e : Endian) (rest : List Byte) (hi : i.wellFormed = true) :
    decodeOperand e i.tag (i.operandBytes e ++ rest) = .ok (i, rest) := by
  cases i with
  | popReg reg | pushReg reg => exact decodeReg_eq_ok.2 ⟨reg, rfl, of_decide_eq_true hi, rfl⟩
  | pushVal w | jmp w | jif w | call w => exact decodeWord_eq_ok.2 ⟨w, rfl, rfl⟩
  | halt | in_ | out | add | sub | mul | div | sqrt | pop | ret | less | greater | or | and | not | rsvd22 => rfl

/-- What the operand decoder of a tag answers is well formed (R74, R78). -/
theorem wellFormed_of_decodeOperand {e : Endian} {t : Tag} {bs rest : List Byte} {i : Instr}
    (h : decodeOperand e t bs = .ok (i, rest)) : i.wellFormed = true := by
  cases t with
  | popReg | pushReg =>
    obtain ⟨reg, -, hreg, rfl⟩ := decodeReg_eq_ok.1 h
    exact decide_eq_true hreg
  | pushVal | jmp | jif | call =>
    obtain ⟨w, -, rfl⟩ := decodeWord_eq_ok.1 h
    rfl
  | halt | in_ | out | add | sub | mul | div | sqrt | pop | ret | less | greater | or | and | not | rsvd22 =>
    cases h
    rfl

theorem Params.OpcodesInjective.tagOf {p : Params} (hp : p.OpcodesInjective) (t : Tag) :
    p.tagOf (p.opcodeByte t) = some t :=
  Params.tagOf_opcodeByte (fun t u => hp t t.mem_all u u.mem_all) t

/-- An opcode byte of the enumeration leaves the operand bytes to decode (R72, R108). -/
theorem decode_opcodeByte {p : Params} (hp : p.OpcodesInjective) (t : Tag) (bs : List Byte) :
    decode p (p.opcodeByte t :: bs) = decodeOperand p.endian t bs := by
  rw [decode, hp.tagOf]

theorem decode_encode {p : Params} (hp : p.OpcodesInjective) {i : Instr} (hi : i.wellFormed = true)
    (rest : List Byte) : decode p (encode p i ++ rest) = .ok (i, rest) := by
  rw [encode, List.cons_append, decode_opcodeByte hp, decodeOperand_operandBytes _ _ hi]

theorem wellFormed_of_decode {p : Params} {bs rest : List Byte} {i : Instr} (h : decode p bs = .ok (i, rest)) :
    i.wellFormed = true := by
  cases bs with
  | nil => cases h
  | cons b bs =>
    cases ht : p.tagOf b with
    | none => simp [decode, ht] at h
    | some t =>
      simp only [decode, ht] at h
      exact wellFormed_of_decodeOperand h

/-! ### Rejections -/

/-- A byte outside the enumeration is rejected before its operands are looked at (R77, D8). -/
theorem decode_unknownOpcode {p : Params} {b : Byte} (h : ∀ t, p.opcodeByte t ≠ b) (bs : List Byte) :
    decode p (b :: bs) = .error .unknownOpcode := by
  rw [decode, Params.tagOf_eq_none.2 h]

/-- Too few operand bytes are rejected before the register byte is looked at (R102, D26). -/
theorem decodeOperand_truncated {t : Tag} (e : Endian) {bs : List Byte} (h : bs.length < t.format.operandLen) :
    decodeOperand e t bs = .error .truncated := by
  cases t with
  | popReg | pushReg =>
    have hnil : bs = [] := List.length_eq_zero_iff.1 (Nat.lt_one_iff.1 h)
    rw [hnil]
    rfl
  | pushVal | jmp | jif | call => exact if_pos h
  | halt | in_ | out | add | sub | mul | div | sqrt | pop | ret | less | greater | or | and | not | rsvd22 =>
    exact absurd h (Nat.not_lt_zero _)

/-- A register byte above 3 is rejected (R74, R103). -/
theorem decodeOperand_unknownRegister {t : Tag} (e : Endian) (ht : t.format = .FR) {reg : Byte} (h : 3 < reg.toNat)
    (bs : List Byte) : decodeOperand e t (reg :: bs) = .error .unknownRegister := by
  cases t with
  | popReg | pushReg => exact if_neg (Nat.not_le_of_lt h)
  | halt | in_ | out | add | sub | mul | div | sqrt | pop | pushVal | jmp | jif | call | ret | less | greater | or | and
  | not | rsvd22 => cases ht

theorem Tag.operandLen_le (t : Tag) : t.format.operandLen ≤ 8 := by
  have := Format.length_le t.format
  rw [Format.length, maxLength] at this
  omega

end Sys2Proof

namespace Sys2Proof.Machine

/-! ### The bytes at `ip` -/

theorem Image.bytesFrom_succ (img : Image) {a n : Nat} (h : a < img.len.toNat) :
    img.bytesFrom a (n + 1) = img.byteAt a :: img.bytesFrom (a + 1) n := by
  have hmin : min (n + 1) (img.len.toNat - a) = min n (img.len.toNat - (a + 1)) + 1 := by omega
  simp only [Image.bytesFrom, hmin, List.range_succ_eq_map, List.map_cons, List.map_map, Nat.add_zero]
  congr 2
  funext k
  simp only [Function.comp_apply, Nat.succ_eq_add_one, Nat.add_right_comm, Nat.add_assoc]

theorem State.fetchBytes_cons {s : State} (h : s.ip.toNat < s.prog.len.toNat) :
    s.fetchBytes = s.prog.byteAt s.ip.toNat :: s.prog.bytesFrom (s.ip.toNat + 1) 8 :=
  Image.bytesFrom_succ s.prog h

/-- A byte in the buffer whose tag is known leaves the bytes after it to decode. -/
theorem State.decode_fetchBytes {s : State} (hp : s.params.OpcodesInjective) (h : s.ip.toNat < s.prog.len.toNat)
    {t : Tag} (ht : s.params.opcodeByte t = s.prog.byteAt s.ip.toNat) :
    decode s.params s.fetchBytes = decodeOperand s.params.endian t (s.prog.bytesFrom (s.ip.toNat + 1) 8) := by
  rw [State.fetchBytes_cons h, ← ht, decode_opcodeByte hp]

/-- An instruction whose encoding stands at `ip` is fetched (R108). -/
theorem State.fetch_of_operandBytes {s : State} (hp : s.params.OpcodesInjective) (h : s.ip.toNat < s.prog.len.toNat)
    {i : Instr} (ht : s.params.opcodeByte i.tag = s.prog.byteAt s.ip.toNat)
    (hb : i.operandBytes s.params.endian = s.prog.bytesFrom (s.ip.toNat + 1) i.tag.format.operandLen)
    (hi : i.wellFormed = true) : s.fetch = .ok i := by
  have hlen : 0 + i.tag.format.operandLen ≤ 8 := by simpa using i.tag.operandLen_le
  have htake := Image.bytesFrom_add s.prog (s.ip.toNat + 1) hlen
  rw [Nat.add_zero, List.drop_zero, ← hb] at htake
  obtain ⟨rest, hrest⟩ : ∃ rest, s.prog.bytesFrom (s.ip.toNat + 1) 8 = i.operandBytes s.params.endian ++ rest :=
    ⟨_, by rw [htake, List.take_append_drop]⟩
  exact State.fetch_eq_ok.2 ⟨rest, by rw [State.decode_fetchBytes hp h ht, hrest, decodeOperand_operandBytes _ _ hi]⟩

theorem errsWith_of_fetch_error {s : State} {e : DecodeError} (hrun : s.status = .running) (he : s.fetch = .error e) :
    ErrsWith (decodeErrorKind e) s (step s) := by
  rw [step_fetch_error hrun he]
  exact errsWith_raise _ s

end Sys2Proof.Machine

namespace Sys2Proof.Proofs

open Sys2Proof.Machine

/-- Settles O1: the tag of the opcode byte is found because OPCODE_BYTE is injective, and the operand bytes decode by the case of
the instruction. -/
theorem decodeEncodeRoundTrip : Obligations.DecodeEncodeRoundTrip :=
  fun _ _ rest hp hi => decode_encode hp hi rest

/-- Settles O2: both halves read the decoder backwards, tag by tag. -/
theorem decodeAcceptsOnlyEncodings : Obligations.DecodeAcceptsOnlyEncodings :=
  fun _ _ _ _ h => ⟨wellFormed_of_decode h, eq_encode_append_of_decode h⟩

/-- Settles O3, by running the decoder on the eight byte strings. -/
theorem referenceWordsDecode : Obligations.ReferenceWordsDecode :=
  ⟨rfl, rfl, rfl, rfl, rfl, rfl, rfl, rfl⟩

/-- Settles O4: each clause says how far the fetch gets, and the step raises its error or executes. -/
theorem stepChecksInOrder : Obligations.StepChecksInOrder := by
  intro s hrun hp
  refine ⟨fun hend => ?_, fun hin hop => ?_, fun t hin ht hlen => ?_, fun t hin ht hfr hlen hreg => ?_,
    fun i hin ht hb hi => step_fetch_ok hrun (State.fetch_of_operandBytes hp hin ht hb hi)⟩
  · exact errsWith_of_fetch_error hrun (State.fetch_endOfBuffer hend)
  · refine errsWith_of_fetch_error (e := .unknownOpcode) hrun (State.fetch_eq_error.2 ?_)
    rw [State.fetchBytes_cons hin, decode_unknownOpcode hop]
  · refine errsWith_of_fetch_error (e := .truncated) hrun (State.fetch_eq_error.2 ?_)
    rw [State.decode_fetchBytes hp hin ht, decodeOperand_truncated]
    rw [Image.bytesFrom_length]
    omega
  · refine errsWith_of_fetch_error (e := .unknownRegister) hrun (State.fetch_eq_error.2 ?_)
    rw [State.decode_fetchBytes hp hin ht, Image.bytesFrom_succ _ (by omega),
      decodeOperand_unknownRegister _ hfr hreg]

/-- Settles O6: the nine bytes decoded are the bytes a fetch takes. -/
theorem stepRunsDecodedInstruction : Obligations.StepRunsDecodedInstruction :=
  fun _ _ rest hrun hd _ => step_fetch_ok hrun (State.fetch_eq_ok.2 ⟨rest, hd⟩)

/-- Settles O7: a fetch is a function of the parameters and of the bytes from `ip` on that lie below PLEN. -/
theorem fetchReadsOnlyTheBuffer : Obligations.FetchReadsOnlyTheBuffer := by
  intro s img hlen hbytes
  have hfetch : State.fetchBytes { s with prog := img } = s.fetchBytes :=
    Image.bytesFrom_congr _ _ hlen (fun a ha => hbytes a (hlen ▸ ha)) _ _
  rw [State.fetch, State.fetch, hfetch]

end Sys2Proof.Proofs
end

section
/-! SUPPORT. Everything one instruction can do to a run (40_loop.md R100, R111; 60_exceptions.md R263): it goes on, halts,
refuses or raises an error. The invariant of a run and the changes of STATUS are read off this one case analysis. -/

namespace Sys2Proof.Machine

/-- Where an instruction that goes on leaves `ip` and the call stack (R26, R200, R205, R206). -/
inductive Flow (i : Instr) (s t : State) : Prop where
  | waits (h : t = s)
  | advances (hip : t.ip = s.nextIp i.tag.format) (hcs : t.cs = s.cs)
  | jumps (hip : s.InBounds t.ip) (hcs : t.cs = s.cs)
  | calls (disp : Word) (hi : i = .call disp) (hip : s.InBounds t.ip) (hroom : s.cs.length ≠ s.params.callstackCap)
      (hcs : t.cs = s.nextIp i.tag.format :: s.cs)
  | returns (hi : i = .ret) (hcs : s.cs = t.ip :: t.cs)

/-- What an instruction that goes on leaves as it is. -/
structure GoesOn (i : Instr) (s t : State) : Prop where
  notHalt : i ≠ .halt
  notRsvd22 : i ≠ .rsvd22
  status : t.status = s.status
  params : t.params = s.params
  prog : t.prog = s.prog
  pendingStarts : t.pendingStarts = s.pendingStarts
  osBound : s.os.length ≤ s.params.opstackCap → t.os.length ≤ s.params.opstackCap
  flow : Flow i s t

/-- What an instruction that raises Error(k) has done before it raises (R263): only an IN out of memory has done anything
the host can see. -/
structure Raises (i : Instr) (k : ErrorKind) (s u : State) : Prop where
  notHalt : i ≠ .halt
  notRsvd22 : i ≠ .rsvd22
  kind : k ≠ .headerMismatch
  params : u.params = s.params
  prog : u.prog = s.prog
  pendingStarts : u.pendingStarts = s.pendingStarts
  output : u.output = s.output
  input : (u.input = s.input ∧ u.taken = s.taken) ∨
    ∃ v, i = .in_ ∧ k = .outOfMemory ∧ s.input = v :: u.input ∧ u.taken = s.taken + 1

/-- The four things an instruction can do to a run. -/
inductive ExecEffect (i : Instr) (s t : State) : Prop where
  | goesOn (h : GoesOn i s t)
  | halts (hi : i = .halt) (ht : t = s.halt)
  | refuses (hi : i = .rsvd22) (ht : t = s.refuse)
  | raises (k : ErrorKind) (u : State) (h : Raises i k s u) (ht : t = u.raised k)

variable {i : Instr} {s t : State}

/-- An instruction raises an error before it has changed anything. -/
theorem ExecEffect.raised {k : ErrorKind} (hh : i ≠ .halt) (hr : i ≠ .rsvd22) (hk : k ≠ .headerMismatch) :
    ExecEffect i s (s.raised k) :=
  .raises k s ⟨hh, hr, hk, rfl, rfl, rfl, rfl, .inl ⟨rfl, rfl⟩⟩ rfl

theorem binaryOp_effect {f : Word → Word → Word} (hh : i ≠ .halt) (hr : i ≠ .rsvd22) (hf : i.tag.format = .F0)
    (h : binaryOp f s = .next t) : ExecEffect i s t := by
  obtain ⟨-, rfl⟩ | ⟨a, b, rest, ho, rfl⟩ := binaryOp_eq_next.1 h
  · exact .raised hh hr nofun
  · exact .goesOn ⟨hh, hr, rfl, rfl, rfl, rfl, by simp only [State.advance_os, State.setOs_os, ho, List.length_cons]; omega,
      .advances (by rw [hf]; rfl) rfl⟩

theorem unaryOp_effect {f : Word → Word} (hh : i ≠ .halt) (hr : i ≠ .rsvd22) (hf : i.tag.format = .F0)
    (h : unaryOp f s = .next t) : ExecEffect i s t := by
  obtain ⟨-, rfl⟩ | ⟨x, rest, ho, rfl⟩ := unaryOp_eq_next.1 h
  · exact .raised hh hr nofun
  · exact .goesOn ⟨hh, hr, rfl, rfl, rfl, rfl, by simp only [State.advance_os, State.setOs_os, ho, List.length_cons]; omega,
      .advances (by rw [hf]; rfl) rfl⟩

theorem execIn_effect (h : execIn s = .next t) : ExecEffect .in_ s t := by
  obtain ⟨-, rfl⟩ | ⟨v, rest, hv, ⟨-, rfl⟩ | ⟨hc, rfl⟩⟩ := execIn_eq_next.1 h
  · exact .goesOn ⟨nofun, nofun, rfl, rfl, rfl, rfl, id, .waits rfl⟩
  · exact .raises .outOfMemory { s with input := rest, taken := s.taken + 1 }
      ⟨nofun, nofun, nofun, rfl, rfl, rfl, rfl, .inr ⟨v, rfl, rfl, hv, rfl⟩⟩ rfl
  · exact .goesOn ⟨nofun, nofun, rfl, rfl, rfl, rfl, fun ho => Nat.lt_of_le_of_ne ho hc, .advances rfl rfl⟩

theorem execOut_effect (h : execOut s = .next t) : ExecEffect .out s t := by
  obtain ⟨-, rfl⟩ | ⟨v, rest, ho, rfl⟩ := execOut_eq_next.1 h
  · exact .raised nofun nofun nofun
  · exact .goesOn ⟨nofun, nofun, rfl, rfl, rfl, rfl, by simp only [ho, List.length_cons]; omega, .advances rfl rfl⟩

theorem execPop_effect (h : execPop s = .next t) : ExecEffect .pop s t := by
  obtain ⟨-, rfl⟩ | ⟨v, rest, ho, rfl⟩ := execPop_eq_next.1 h
  · exact .raised nofun nofun nofun
  · exact .goesOn ⟨nofun, nofun, rfl, rfl, rfl, rfl, by simp only [ho, List.length_cons]; omega, .advances rfl rfl⟩

theorem execPopReg_effect {reg : Byte} (h : execPopReg reg s = .next t) : ExecEffect (.popReg reg) s t := by
  obtain ⟨-, rfl⟩ | ⟨j, -, ⟨-, rfl⟩ | ⟨v, rest, ho, rfl⟩⟩ := execPopReg_eq_next.1 h
  · exact .raised nofun nofun nofun
  · exact .raised nofun nofun nofun
  · exact .goesOn ⟨nofun, nofun, rfl, rfl, rfl, rfl, by simp only [ho, List.length_cons]; omega, .advances rfl rfl⟩

theorem execPushVal_effect {imm : Word} (h : execPushVal imm s = .next t) : ExecEffect (.pushVal imm) s t := by
  obtain ⟨-, rfl⟩ | ⟨hc, rfl⟩ := execPushVal_eq_next.1 h
  · exact .raised nofun nofun nofun
  · exact .goesOn ⟨nofun, nofun, rfl, rfl, rfl, rfl, fun ho => Nat.lt_of_le_of_ne ho hc, .advances rfl rfl⟩

theorem execPushReg_effect {reg : Byte} (h : execPushReg reg s = .next t) : ExecEffect (.pushReg reg) s t := by
  obtain ⟨-, rfl⟩ | ⟨j, -, ⟨-, rfl⟩ | ⟨hc, rfl⟩⟩ := execPushReg_eq_next.1 h
  · exact .raised nofun nofun nofun
  · exact .raised nofun nofun nofun
  · exact .goesOn ⟨nofun, nofun, rfl, rfl, rfl, rfl, fun ho => Nat.lt_of_le_of_ne ho hc, .advances rfl rfl⟩

theorem execJmp_effect {disp : Word} (h : execJmp disp s = .next t) : ExecEffect (.jmp disp) s t := by
  obtain ⟨-, rfl⟩ | ⟨hd, rfl⟩ := jumpTo_eq_next.1 h
  · exact .raised nofun nofun nofun
  · exact .goesOn ⟨nofun, nofun, rfl, rfl, rfl, rfl, id, .jumps (State.targetOk_iff_inBounds.1 hd) rfl⟩

theorem execJif_effect {disp : Word} (h : execJif disp s = .next t) : ExecEffect (.jif disp) s t := by
  obtain ⟨-, rfl⟩ | ⟨v, rest, ho, ⟨-, -, rfl⟩ | ⟨hd, -, rfl⟩ | ⟨-, -, rfl⟩⟩ := execJif_eq_next.1 h
  · exact .raised nofun nofun nofun
  · exact .raises .badJumpAddress _ ⟨nofun, nofun, nofun, rfl, rfl, rfl, rfl, .inl ⟨rfl, rfl⟩⟩ rfl
  · exact .goesOn ⟨nofun, nofun, rfl, rfl, rfl, rfl, by simp only [ho, List.length_cons]; omega,
      .jumps (State.targetOk_iff_inBounds.1 hd) rfl⟩
  · exact .goesOn ⟨nofun, nofun, rfl, rfl, rfl, rfl, by simp only [ho, List.length_cons]; omega, .advances rfl rfl⟩

theorem execCall_effect {disp : Word} (h : execCall disp s = .next t) : ExecEffect (.call disp) s t := by
  obtain ⟨-, rfl⟩ | ⟨hc, ⟨-, rfl⟩ | ⟨hd, rfl⟩⟩ := execCall_eq_next.1 h
  · exact .raised nofun nofun nofun
  · exact .raises .badJumpAddress _ ⟨nofun, nofun, nofun, rfl, rfl, rfl, rfl, .inl ⟨rfl, rfl⟩⟩ rfl
  · exact .goesOn ⟨nofun, nofun, rfl, rfl, rfl, rfl, id, .calls disp rfl (State.targetOk_iff_inBounds.1 hd) hc rfl⟩

theorem execRet_effect (h : execRet s = .next t) : ExecEffect .ret s t := by
  obtain ⟨-, rfl⟩ | ⟨r, rest, hc, rfl⟩ := execRet_eq_next.1 h
  · exact .raised nofun nofun nofun
  · exact .goesOn ⟨nofun, nofun, rfl, rfl, rfl, rfl, id, .returns rfl hc⟩

theorem exec_effect (h : exec i s = .next t) : ExecEffect i s t := by
  cases i with
  | halt => cases h; exact .halts rfl rfl
  | rsvd22 => cases h; exact .refuses rfl rfl
  | in_ => exact execIn_effect h
  | out => exact execOut_effect h
  | add | sub | mul | div | less | greater | or | and => exact binaryOp_effect nofun nofun rfl h
  | sqrt | not => exact unaryOp_effect nofun nofun rfl h
  | pop => exact execPop_effect h
  | popReg reg => exact execPopReg_effect h
  | pushVal imm => exact execPushVal_effect h
  | pushReg reg => exact execPushReg_effect h
  | jmp disp => exact execJmp_effect h
  | jif disp => exact execJif_effect h
  | call disp => exact execCall_effect h
  | ret => exact execRet_effect h

/-- A step of a run is an error of the fetch or the effect of the fetched instruction (R108). -/
theorem step_running_cases (hrun : s.status = .running) (h : step s = .next t) :
    (∃ e, s.fetch = .error e ∧ t = s.raised (decodeErrorKind e)) ∨ ∃ i, s.fetch = .ok i ∧ exec i s = .next t := by
  cases hf : s.fetch with
  | error e =>
    rw [step_fetch_error hrun hf, raise_eq_next] at h
    exact .inl ⟨e, rfl, h⟩
  | ok i =>
    rw [step_fetch_ok hrun hf] at h
    exact .inr ⟨i, rfl, h⟩

/-! ### The invariant -/

/-- Outside a run the invariant speaks of the buffers and the stack bounds only. -/
theorem State.Inv.of_not_running (hst : t.status ≠ .running) (hprog : t.prog.wf)
    (hpend : ∀ img ∈ t.pendingStarts, img.wf) (hos : t.os.length ≤ t.params.opstackCap)
    (hcs : t.cs.length ≤ t.params.callstackCap) : t.Inv :=
  ⟨hprog, hpend, hos, hcs, fun h => absurd h hst, fun h => absurd h hst, fun h => absurd h hst, fun h => absurd h hst⟩

theorem State.Inv.raised (k : ErrorKind) (hprog : s.prog.wf) (hpend : ∀ img ∈ s.pendingStarts, img.wf) :
    (s.raised k).Inv :=
  .of_not_running nofun hprog hpend s.unspecified_bounds.1 s.unspecified_bounds.2

theorem State.Inv.refuse (hs : s.Inv) : s.refuse.Inv :=
  .of_not_running nofun hs.progWf hs.pendingWf s.unspecified_bounds.1 s.unspecified_bounds.2

theorem State.Inv.halt (hs : s.Inv) : s.halt.Inv :=
  .of_not_running nofun hs.progWf hs.pendingWf hs.osBound hs.csBound

/-- An accepted start leaves `ip` at the end of the header and both stacks empty (R301, R35); a rejected one is an error. -/
theorem State.Inv.start {img : Image} (himg : img.wf) (hpend : ∀ img ∈ s.pendingStarts, img.wf) :
    (State.start img s).Inv := by
  cases hacc : img.headerAccepted s.params with
  | false =>
    rw [State.start_rejected s img hacc]
    exact .raised _ himg hpend
  | true =>
    have hlen : headerLen ≤ img.len.toNat := by
      rw [Image.headerAccepted, Bool.and_eq_true, decide_eq_true_eq] at hacc
      exact hacc.1
    rw [State.start_accepted s img hacc]
    exact ⟨himg, hpend, Nat.zero_le _, Nat.zero_le _, fun _ => hacc, fun _ => hlen, fun _ _ => Nat.le_refl 8, fun _ => nofun⟩

/-- The offset after a fetched instruction lies past the header or the header may be executed, and at or before PLEN. -/
theorem State.nextIp_bounds (hf : s.fetch = .ok i) :
    s.ip.toNat < (s.nextIp i.tag.format).toNat ∧ (s.nextIp i.tag.format).toNat ≤ s.prog.len.toNat := by
  rw [State.nextIp_toNat hf]
  exact ⟨Nat.lt_add_of_pos_right (by simp [Format.length]), State.fetch_in_buffer hf⟩

/-- Where a fetched instruction may leave `ip`: in the buffer, and past the header unless it may be executed. -/
theorem Flow.ip_bounds (hs : s.Inv) (hrun : s.status = .running) (hf : s.fetch = .ok i) (h : Flow i s t) :
    t.ip.toNat ≤ s.prog.len.toNat ∧ (s.params.headerPolicy = .fault → headerLen ≤ t.ip.toNat) := by
  have hjump : s.InBounds t.ip →
      t.ip.toNat ≤ s.prog.len.toNat ∧ (s.params.headerPolicy = .fault → headerLen ≤ t.ip.toNat) := by
    rintro ⟨hlt, hhdr⟩
    exact ⟨Nat.le_of_lt hlt, fun hp => hhdr.resolve_right (by rw [hp]; nofun)⟩
  cases h with
  | waits h => rw [h]; exact ⟨hs.ipInBuffer hrun, hs.ipPastHeader hrun⟩
  | advances hip =>
    obtain ⟨hlt, hle⟩ := State.nextIp_bounds hf
    rw [hip]
    exact ⟨hle, fun hp => Nat.le_trans (hs.ipPastHeader hrun hp) (Nat.le_of_lt hlt)⟩
  | jumps hip => exact hjump hip
  | calls disp hi hip => exact hjump hip
  | returns hi hcs =>
    obtain ⟨hlo, hhi⟩ := hs.returnAddrs hrun t.ip (by rw [hcs]; exact List.mem_cons_self)
    exact ⟨hhi, fun _ => Nat.le_of_lt hlo⟩

/-- What a fetched instruction may leave on the call stack: no more than its capacity, and only return addresses between 9 and
PLEN, because a field end lies nine bytes after an offset of the buffer (R205, R206). -/
theorem Flow.cs_bounds (hs : s.Inv) (hrun : s.status = .running) (hf : s.fetch = .ok i) (h : Flow i s t) :
    t.cs.length ≤ s.params.callstackCap ∧ ∀ r ∈ t.cs, headerLen < r.toNat ∧ r.toNat ≤ s.prog.len.toNat := by
  have hret := hs.returnAddrs hrun
  have hcap := hs.csBound
  cases h with
  | waits h => rw [h]; exact ⟨hcap, hret⟩
  | advances _ hcs => rw [hcs]; exact ⟨hcap, hret⟩
  | jumps _ hcs => rw [hcs]; exact ⟨hcap, hret⟩
  | calls disp hi _ hroom hcs =>
    subst hi
    have hend := State.nextIp_toNat hf
    have hlen : (Instr.call disp).tag.format.length = headerLen + 1 := rfl
    rw [hcs]
    exact ⟨Nat.lt_of_le_of_ne hcap hroom,
      List.forall_mem_cons.2 ⟨⟨by omega, (State.nextIp_bounds hf).2⟩, hret⟩⟩
  | returns hi hcs =>
    rw [hcs] at hcap hret
    exact ⟨Nat.le_of_succ_le hcap, (List.forall_mem_cons.1 hret).2⟩

theorem GoesOn.inv (hs : s.Inv) (hrun : s.status = .running) (hf : s.fetch = .ok i) (h : GoesOn i s t) : t.Inv := by
  obtain ⟨hip, hhdr⟩ := h.flow.ip_bounds hs hrun hf
  obtain ⟨hcs, hret⟩ := h.flow.cs_bounds hs hrun hf
  have hacc := hs.header hrun
  rw [← h.prog] at hip hret hacc
  rw [← h.params] at hhdr hcs hacc
  exact ⟨h.prog ▸ hs.progWf, h.pendingStarts ▸ hs.pendingWf, h.params ▸ h.osBound hs.osBound, hcs, fun _ => hacc,
    fun _ => hip, fun _ => hhdr, fun _ => hret⟩

theorem exec_keeps_inv (hs : s.Inv) (hrun : s.status = .running) (hf : s.fetch = .ok i) (h : exec i s = .next t) :
    t.Inv := by
  cases exec_effect h with
  | goesOn h => exact h.inv hs hrun hf
  | halts _ ht => rw [ht]; exact hs.halt
  | refuses _ ht => rw [ht]; exact hs.refuse
  | raises k u h ht =>
    rw [ht]
    exact .raised k (h.prog ▸ hs.progWf) (h.pendingStarts ▸ hs.pendingWf)

theorem stopped_keeps_inv (hs : s.Inv) (h : s.stopped = .next t) : t.Inv := by
  obtain ⟨img, rest, hp, rfl⟩ | ⟨-, -, rfl⟩ := State.stopped_eq_next.1 h
  · obtain ⟨himg, hrest⟩ := List.forall_mem_cons.1 (hp ▸ hs.pendingWf)
    exact .start himg hrest
  · exact hs

/-! ### STATUS and the ports -/

theorem decodeErrorKind_ne_headerMismatch (e : DecodeError) : decodeErrorKind e ≠ .headerMismatch := by
  cases e <;> exact nofun

/-- What STATUS can become by an instruction of a run. -/
theorem exec_status (hrun : s.status = .running) (h : exec i s = .next t) :
    t.status ≠ .idle ∧ t.status ≠ .error .headerMismatch ∧ (t.status = .halted ↔ i = .halt) ∧
      (t.status = .refused ↔ i = .rsvd22) := by
  cases exec_effect h with
  | goesOn h => simp [h.status, hrun, h.notHalt, h.notRsvd22]
  | halts hi ht => simp [hi, ht]
  | refuses hi ht => simp [hi, ht]
  | raises k u h ht => simp [ht, h.kind, h.notHalt, h.notRsvd22]

/-- An instruction that raises sends nothing, and only an IN out of memory has taken an input (R263). -/
theorem exec_error_silent {k : ErrorKind} (hrun : s.status = .running) (h : exec i s = .next t)
    (ht : t.status = .error k) :
    t.output = s.output ∧ ((t.input = s.input ∧ t.taken = s.taken) ∨
      ∃ v, i = .in_ ∧ k = .outOfMemory ∧ s.input = v :: t.input ∧ t.taken = s.taken + 1) := by
  cases exec_effect h with
  | goesOn h => rw [h.status, hrun] at ht; cases ht
  | halts _ ht' => rw [ht'] at ht; cases ht
  | refuses _ ht' => rw [ht'] at ht; cases ht
  | raises k' u hu ht' =>
    rw [ht'] at ht ⊢
    cases ht
    exact ⟨hu.output, hu.input⟩

/-- No instruction changes the parameters, the buffer or the start requests (R50, R302). -/
theorem exec_keeps_params (h : exec i s = .next t) :
    t.params = s.params ∧ t.prog = s.prog ∧ t.pendingStarts = s.pendingStarts := by
  cases exec_effect h with
  | goesOn h => exact ⟨h.params, h.prog, h.pendingStarts⟩
  | halts _ ht | refuses _ ht => rw [ht]; exact ⟨rfl, rfl, rfl⟩
  | raises k u h ht => rw [ht]; exact ⟨h.params, h.prog, h.pendingStarts⟩

end Sys2Proof.Machine

namespace Sys2Proof.Proofs

open Sys2Proof.Machine

/-- Settles O13: a machine that is not running starts or stays; a running one raises or executes the fetched instruction, whose
effect keeps `ip` and the return addresses in the buffer and the stacks within their capacities. -/
theorem stepKeepsInvariant : Obligations.StepKeepsInvariant := by
  intro s t hs hstep
  by_cases hrun : s.status = .running
  · obtain ⟨e, -, rfl⟩ | ⟨i, hf, hexec⟩ := step_running_cases hrun hstep
    · exact .raised _ hs.progWf hs.pendingWf
    · exact exec_keeps_inv hs hrun hf hexec
  · rw [step_not_running hrun] at hstep
    exact stopped_keeps_inv hs hstep

/-- Settles O14: the state before the first start is IDLE, with an empty buffer and empty stacks. -/
theorem resetMeetsInvariant : Obligations.ResetMeetsInvariant :=
  .of_not_running nofun Image.empty_wf nofun (Nat.zero_le _) (Nat.zero_le _)

/-- Settles O15: an erroring fetch leaves ERROR with a kind of its own; of the instructions only HALT halts and only RSVD22 is
refused. -/
theorem statusTransitions : Obligations.StatusTransitions := by
  intro s t hrun hstep
  obtain ⟨e, hf, rfl⟩ | ⟨i, hf, hexec⟩ := step_running_cases hrun hstep
  · simp [hf, decodeErrorKind_ne_headerMismatch]
  · simpa [hf] using exec_status hrun hexec

/-- Settles O17: an erroring fetch touches no port, and an erroring instruction only where IN has taken its value. -/
theorem erroringStepIsSilent : Obligations.ErroringStepIsSilent := by
  intro s t k hrun hstep ht
  obtain ⟨e, -, rfl⟩ | ⟨i, hf, hexec⟩ := step_running_cases hrun hstep
  · exact ⟨rfl, .inl ⟨rfl, rfl⟩⟩
  · simpa [hf] using exec_error_silent hrun hexec ht

/-- Settles O21: a start sets the buffer and takes a request but keeps the parameters; a step of a run keeps all three. -/
theorem stepKeepsParamsAndBuffer : Obligations.StepKeepsParamsAndBuffer := by
  intro s t hstep
  by_cases hrun : s.status = .running
  · obtain ⟨e, -, rfl⟩ | ⟨i, -, hexec⟩ := step_running_cases hrun hstep
    · exact ⟨rfl, fun _ => ⟨rfl, rfl⟩⟩
    · obtain ⟨hparams, hprog, hpend⟩ := exec_keeps_params hexec
      exact ⟨hparams, fun _ => ⟨hprog, hpend⟩⟩
  · rw [step_not_running hrun] at hstep
    refine ⟨?_, fun h => absurd h hrun⟩
    obtain ⟨img, rest, -, rfl⟩ | ⟨-, -, rfl⟩ := State.stopped_eq_next.1 hstep
    · exact State.start_params _ _
    · rfl

end Sys2Proof.Proofs
end

section
/-! SUPPORT. Parts of the state that instructions do not read (10_state.md R30, R31; 44_control_flow.md R202): each shared
operation is shown once not to depend on a part, and the instructions follow. The parts are the call stack, the operand stack
and the count of free values. -/

namespace Sys2Proof.Machine

/-- The update `g` changes nothing that `ip`, the buffer or the parameters say, and a comparison `R` of outcomes does not see
it where a run ends. -/
structure Unread (g : State → State) (R : Result → Result → Prop) : Prop where
  params : ∀ s, (g s).params = s.params
  prog : ∀ s, (g s).prog = s.prog
  ip : ∀ s, (g s).ip = s.ip
  setIp : ∀ v s, (g s).setIp v = g (s.setIp v)
  next : ∀ s, R (.next (g s)) (.next s)
  raise : ∀ k s, R (raise k (g s)) (raise k s)
  halt : ∀ s, R (.next (g s).halt) (.next s.halt)
  refuse : ∀ s, R (.next (g s).refuse) (.next s.refuse)

/-- The update `g` leaves the operand stack alone. -/
structure KeepsOs (g : State → State) : Prop where
  os : ∀ s, (g s).os = s.os
  setOs : ∀ l s, (g s).setOs l = g (s.setOs l)

/-- The update `g` leaves the call stack alone. -/
structure KeepsCs (g : State → State) : Prop where
  cs : ∀ s, (g s).cs = s.cs
  setCs : ∀ l s, (g s).setCs l = g (s.setCs l)

/-- The input port after a value is taken (R131). -/
def State.takeInput (rest : List Word) (s : State) : State := { s with input := rest, taken := s.taken + 1 }

/-- The update `g` leaves the registers and the ports alone. -/
structure KeepsPorts (g : State → State) : Prop where
  regs : ∀ s, (g s).regs = s.regs
  input : ∀ s, (g s).input = s.input
  setReg : ∀ j v s, (g s).setReg j v = g (s.setReg j v)
  emitOut : ∀ v s, (g s).emitOut v = g (s.emitOut v)
  takeInput : ∀ l s, (g s).takeInput l = g (s.takeInput l)

variable {g : State → State} {R : Result → Result → Prop}

/-! ### The shared operations -/

namespace Unread

theorem nextIp (hg : Unread g R) (f : Format) (s : State) : (g s).nextIp f = s.nextIp f := by
  rw [State.nextIp, State.nextIp, hg.ip]

theorem target (hg : Unread g R) (disp : Word) (s : State) : (g s).target disp = s.target disp := by
  rw [State.target, State.target, hg.nextIp]

theorem advance (hg : Unread g R) (f : Format) (s : State) : (g s).advance f = g (s.advance f) := by
  rw [State.advance, State.advance, hg.nextIp, hg.setIp]

theorem next_advance (hg : Unread g R) (f : Format) (s : State) :
    R (.next ((g s).advance f)) (.next (s.advance f)) := by
  rw [hg.advance]
  exact hg.next _

theorem checkTarget (hg : Unread g R) (d : Word) (s : State) {next next' : Result} (h : R next next') :
    R (checkTarget d (g s) next) (checkTarget d s next') := by
  have hok : (g s).targetOk d = s.targetOk d := by rw [State.targetOk, State.targetOk, hg.prog, hg.params]
  rw [Machine.checkTarget, Machine.checkTarget, hok]
  split
  · exact h
  · exact hg.raise _ s

theorem jumpTo (hg : Unread g R) (d : Word) (s : State) : R (jumpTo d (g s)) (jumpTo d s) := by
  refine hg.checkTarget d s ?_
  rw [hg.setIp]
  exact hg.next _

theorem pushOs (hg : Unread g R) (ho : KeepsOs g) (v : Word) (s : State) {next : State → Result}
    (h : ∀ s, R (next (g s)) (next s)) : R (pushOs v (g s) next) (pushOs v s next) := by
  rw [Machine.pushOs, Machine.pushOs, ho.os, hg.params, ho.setOs]
  split
  · exact hg.raise _ s
  · exact h _

theorem popOs (hg : Unread g R) (ho : KeepsOs g) (s : State) {next : Word → State → Result}
    (h : ∀ v s, R (next v (g s)) (next v s)) : R (popOs (g s) next) (popOs s next) := by
  cases hos : s.os with
  | nil =>
    rw [popOs_nil hos, popOs_nil (by rw [ho.os, hos])]
    exact hg.raise _ s
  | cons v rest =>
    rw [popOs_cons hos, popOs_cons (by rw [ho.os, hos]), ho.setOs]
    exact h v _

theorem unaryOp (hg : Unread g R) (ho : KeepsOs g) (f : Word → Word) (s : State) :
    R (unaryOp f (g s)) (unaryOp f s) := by
  cases hos : s.os with
  | nil =>
    have hs : s.os.length < 1 := by simp [hos]
    rw [unaryOp_few hs, unaryOp_few (by rwa [ho.os])]
    exact hg.raise _ s
  | cons x rest =>
    rw [unaryOp_cons hos, unaryOp_cons (by rw [ho.os, hos]), ho.setOs]
    exact hg.next_advance _ _

theorem binaryOp (hg : Unread g R) (ho : KeepsOs g) (f : Word → Word → Word) (s : State) :
    R (binaryOp f (g s)) (binaryOp f s) := by
  by_cases hs : s.os.length < 2
  · rw [binaryOp_few hs, binaryOp_few (by rwa [ho.os])]
    exact hg.raise _ s
  · match hos : s.os, hs with
    | b :: a :: rest, _ =>
      rw [binaryOp_cons hos, binaryOp_cons (by rw [ho.os, hos]), ho.setOs]
      exact hg.next_advance _ _
    | [_], hs | [], hs => exact absurd (by simp) hs

theorem pushCs (hg : Unread g R) (hc : KeepsCs g) (v : Word) (s : State) {next : State → Result}
    (h : ∀ s, R (next (g s)) (next s)) : R (pushCs v (g s) next) (pushCs v s next) := by
  rw [Machine.pushCs, Machine.pushCs, hc.cs, hg.params, hc.setCs]
  split
  · exact hg.raise _ s
  · exact h _

theorem popCs (hg : Unread g R) (hc : KeepsCs g) (s : State) {next : Word → State → Result}
    (h : ∀ v s, R (next v (g s)) (next v s)) : R (popCs (g s) next) (popCs s next) := by
  cases hcs : s.cs with
  | nil =>
    rw [popCs_nil hcs, popCs_nil (by rw [hc.cs, hcs])]
    exact hg.raise _ s
  | cons v rest =>
    rw [popCs_cons hcs, popCs_cons (by rw [hc.cs, hcs]), hc.setCs]
    exact h v _

theorem takeIn (hg : Unread g R) (hp : KeepsPorts g) (s : State) {next : Word → State → Result}
    (h : ∀ v s, R (next v (g s)) (next v s)) : R (takeIn (g s) next) (takeIn s next) := by
  cases hin : s.input with
  | nil =>
    rw [takeIn_nil hin, takeIn_nil (by rw [hp.input, hin])]
    exact hg.next s
  | cons v rest =>
    rw [takeIn_cons hin, takeIn_cons (by rw [hp.input, hin])]
    have := h v (s.takeInput rest)
    rwa [← hp.takeInput] at this

theorem withReg (hg : Unread g R) (reg : Byte) (s : State) {next next' : RegName → Result}
    (h : ∀ j, R (next j) (next' j)) : R (withReg reg (g s) next) (withReg reg s next') := by
  cases hr : regName reg with
  | none =>
    rw [Machine.withReg, Machine.withReg, hr]
    exact hg.raise _ s
  | some j =>
    rw [withReg_some hr, withReg_some hr]
    exact h j

/-! ### The instructions -/

theorem execIn (hg : Unread g R) (ho : KeepsOs g) (hp : KeepsPorts g) (s : State) : R (execIn (g s)) (execIn s) :=
  hg.takeIn hp s fun v s => hg.pushOs ho v s fun s => hg.next_advance _ s

theorem execOut (hg : Unread g R) (ho : KeepsOs g) (hp : KeepsPorts g) (s : State) : R (execOut (g s)) (execOut s) :=
  hg.popOs ho s fun v s => by
    rw [hp.emitOut]
    exact hg.next_advance _ _

theorem execPopReg (hg : Unread g R) (ho : KeepsOs g) (hp : KeepsPorts g) (reg : Byte) (s : State) :
    R (execPopReg reg (g s)) (execPopReg reg s) :=
  hg.withReg reg s fun j => hg.popOs ho s fun v s => by
    rw [hp.setReg]
    exact hg.next_advance _ _

theorem execPushReg (hg : Unread g R) (ho : KeepsOs g) (hp : KeepsPorts g) (reg : Byte) (s : State) :
    R (execPushReg reg (g s)) (execPushReg reg s) :=
  hg.withReg reg s fun j => by
    rw [hp.regs]
    exact hg.pushOs ho _ s fun s => hg.next_advance _ s

/-- JIF branches on the popped value and a parameter. -/
theorem execJif (hg : Unread g R) (ho : KeepsOs g) (disp : Word) (s : State) :
    R (execJif disp (g s)) (execJif disp s) :=
  hg.popOs ho s fun v s => by
    rw [hg.target, hg.params]
    split
    · exact hg.jumpTo _ s
    · split
      · exact hg.checkTarget _ s (hg.next_advance _ s)
      · exact hg.next_advance _ s

theorem execCall (hg : Unread g R) (hc : KeepsCs g) (disp : Word) (s : State) :
    R (execCall disp (g s)) (execCall disp s) := by
  rw [Machine.execCall, Machine.execCall, hg.nextIp]
  refine hg.pushCs hc _ s fun s => ?_
  rw [hg.target]
  exact hg.jumpTo _ s

theorem execRet (hg : Unread g R) (hc : KeepsCs g) (s : State) : R (execRet (g s)) (execRet s) :=
  hg.popCs hc s fun r s => by
    rw [hg.setIp]
    exact hg.next _

/-- An instruction other than CALL and RET reads neither the call stack nor anything else that `g` changes. -/
theorem exec (hg : Unread g R) (ho : KeepsOs g) (hp : KeepsPorts g) {i : Instr} (s : State)
    (hcall : ∀ disp, i ≠ .call disp) (hret : i ≠ .ret) : R (exec i (g s)) (exec i s) := by
  cases i with
  | halt => exact hg.halt s
  | rsvd22 => exact hg.refuse s
  | in_ => exact hg.execIn ho hp s
  | out => exact hg.execOut ho hp s
  | add | sub | mul | div | less | greater | or | and => exact hg.binaryOp ho _ s
  | sqrt => exact hg.unaryOp ho _ s
  | not =>
    simp only [Machine.exec, execNot, hg.params]
    exact hg.unaryOp ho _ s
  | pop =>
    simp only [Machine.exec, execPop]
    exact hg.popOs ho s fun _ s => hg.next_advance _ s
  | popReg reg => exact hg.execPopReg ho hp reg s
  | pushVal imm =>
    simp only [Machine.exec, execPushVal]
    exact hg.pushOs ho imm s fun s => hg.next_advance _ s
  | pushReg reg => exact hg.execPushReg ho hp reg s
  | jmp disp =>
    simp only [Machine.exec, execJmp, hg.target]
    exact hg.jumpTo _ s
  | jif disp => exact hg.execJif ho disp s
  | call disp => exact absurd rfl (hcall disp)
  | ret => exact absurd rfl hret

/-- No instruction reads what `g` changes, where `g` leaves the call stack alone too. -/
theorem exec_of_keepsCs (hg : Unread g R) (ho : KeepsOs g) (hc : KeepsCs g) (hp : KeepsPorts g) (i : Instr) (s : State) :
    R (Machine.exec i (g s)) (Machine.exec i s) := by
  by_cases hcall : ∃ disp, i = .call disp
  · obtain ⟨disp, rfl⟩ := hcall
    exact hg.execCall hc disp s
  · by_cases hret : i = .ret
    · rw [hret]
      exact hg.execRet hc s
    · exact hg.exec ho hp s (not_exists.1 hcall) hret

end Unread

/-! ### The call stack and the operand stack -/

/-- The state with another call stack. -/
def State.withCs (c : List Word) (s : State) : State := { s with cs := c }

/-- The state with another operand stack. -/
def State.withOs (o : List Word) (s : State) : State := { s with os := o }

/-- Two outcomes are the same once `g` is applied to their next states. -/
def SameAfter (g : State → State) (x y : Result) : Prop := mapNext g x = mapNext g y

theorem unread_withCs (c : List Word) : Unread (State.withCs c) (SameAfter (State.withCs c)) :=
  ⟨fun _ => rfl, fun _ => rfl, fun _ => rfl, fun _ _ => rfl, fun _ => rfl, fun _ _ => rfl, fun _ => rfl, fun _ => rfl⟩

theorem unread_withOs (o : List Word) : Unread (State.withOs o) (SameAfter (State.withOs o)) :=
  ⟨fun _ => rfl, fun _ => rfl, fun _ => rfl, fun _ _ => rfl, fun _ => rfl, fun _ _ => rfl, fun _ => rfl, fun _ => rfl⟩

theorem keepsOs_withCs (c : List Word) : KeepsOs (State.withCs c) := ⟨fun _ => rfl, fun _ _ => rfl⟩

theorem keepsPorts_withCs (c : List Word) : KeepsPorts (State.withCs c) :=
  ⟨fun _ => rfl, fun _ => rfl, fun _ _ _ => rfl, fun _ _ => rfl, fun _ _ => rfl⟩

theorem keepsCs_withOs (o : List Word) : KeepsCs (State.withOs o) := ⟨fun _ => rfl, fun _ _ => rfl⟩

variable {i : Instr} {s t : State}

/-- An instruction that completes has gone on or halted. -/
theorem exec_completed (h : exec i s = .next t) (ht : t.Completed) : GoesOn i s t ∨ t = s.halt := by
  cases exec_effect h with
  | goesOn h => exact .inl h
  | halts _ h => exact .inr h
  | refuses _ h => rw [h] at ht; exact absurd ht (State.not_completed_refuse s)
  | raises k u _ h => rw [h] at ht; exact absurd ht (State.not_completed_raised u k)

theorem exec_keeps_cs (h : exec i s = .next t) (ht : t.Completed) (hcall : ∀ disp, i ≠ .call disp) (hret : i ≠ .ret) :
    t.cs = s.cs := by
  obtain hgo | rfl := exec_completed h ht
  · cases hgo.flow with
    | waits h => rw [h]
    | advances _ hcs | jumps _ hcs => exact hcs
    | calls disp hi => exact absurd hi (hcall disp)
    | returns hi => exact absurd hi hret
  · rfl

theorem execCall_completed {disp : Word} (h : execCall disp s = .next t) (ht : t.Completed) :
    t = { s with cs := s.nextIp .FD :: s.cs, ip := s.target disp } := by
  obtain ⟨-, rfl⟩ | ⟨-, ⟨-, rfl⟩ | ⟨-, rfl⟩⟩ := execCall_eq_next.1 h
  · exact absurd ht (State.not_completed_raised _ _)
  · exact absurd ht (State.not_completed_raised _ _)
  · rfl

theorem execRet_completed (h : execRet s = .next t) (ht : t.Completed) :
    ∃ r rest, s.cs = r :: rest ∧ t = { s with cs := rest, ip := r } := by
  obtain ⟨-, rfl⟩ | hret := execRet_eq_next.1 h
  · exact absurd ht (State.not_completed_raised _ _)
  · exact hret

theorem execJmp_completed {disp : Word} (h : execJmp disp s = .next t) (ht : t.Completed) :
    t = s.setIp (s.target disp) := by
  obtain ⟨-, rfl⟩ | ⟨-, rfl⟩ := jumpTo_eq_next.1 h
  · exact absurd ht (State.not_completed_raised _ _)
  · rfl

end Sys2Proof.Machine

namespace Sys2Proof.Proofs

open Sys2Proof.Machine

/-- Settles O19: a completing instruction other than CALL and RET keeps the call stack and does not read it; CALL and RET move
one return address. -/
theorem callStackIsolated : Obligations.CallStackIsolated := by
  refine ⟨fun i s t _ h ht hcall hret => exec_keeps_cs h ht hcall hret, fun disp s t _ h ht => ?_, fun s t _ h ht => ?_,
    fun i s c hcall hret => (unread_withCs c).exec (keepsOs_withCs c) (keepsPorts_withCs c) s hcall hret⟩
  · rw [execCall_completed h ht]
    rfl
  · obtain ⟨r, rest, hcs, rfl⟩ := execRet_completed h ht
    exact hcs

/-- Settles O20: none of the four has an operation on the operand stack among its own. -/
theorem operandStackUntouched : Obligations.OperandStackUntouched := by
  intro i disp hi
  simp only [List.mem_cons, List.not_mem_nil, or_false] at hi
  obtain rfl | rfl | rfl | rfl := hi
  · exact ⟨fun s t _ h _ => by cases h; rfl, fun s o => rfl⟩
  · exact ⟨fun s t _ h ht => by rw [execJmp_completed h ht]; rfl, fun s o => (unread_withOs o).jumpTo _ s⟩
  · exact ⟨fun s t _ h ht => by rw [execCall_completed h ht],
      fun s o => (unread_withOs o).execCall (keepsCs_withOs o) disp s⟩
  · refine ⟨fun s t _ h ht => ?_, fun s o => (unread_withOs o).execRet (keepsCs_withOs o) s⟩
    obtain ⟨r, rest, -, rfl⟩ := execRet_completed h ht
    rfl

end Sys2Proof.Proofs
end

section
/-! SUPPORT. Machines that are not running, and starts (40_loop.md R100; 70_reset_and_hazards.md R300, R301). -/

namespace Sys2Proof.Machine

variable {s t : State}

/-! ### No step until a start -/

/-- With no start asked for, a machine that is not running and not REFUSED stays (R100, D29). -/
theorem step_stays (hrun : s.status ≠ .running) (href : s.status ≠ .refused) (hp : s.pendingStarts = []) :
    step s = .next s := by
  rw [step_not_running hrun]
  exact State.stopped_eq_next.2 (.inr ⟨hp, href, rfl⟩)

/-- A REFUSED machine with no start asked for has no next state (R80). -/
theorem step_refused (href : s.status = .refused) (hp : s.pendingStarts = []) :
    step s = .refused .unnamedOpcode := by
  rw [step_not_running (by rw [href]; nofun)]
  exact State.stopped_eq_refused.2 ⟨hp, href, rfl⟩

/-- A machine that is not running starts the oldest request (R301). -/
theorem step_start {img : Image} {rest : List Image} (hrun : s.status ≠ .running)
    (hp : s.pendingStarts = img :: rest) : step s = .next (State.start img { s with pendingStarts := rest }) := by
  rw [step_not_running hrun]
  exact State.stopped_eq_next.2 (.inl ⟨img, rest, hp, rfl⟩)

/-! ### Starts -/

theorem Image.headerAccepted_iff {p : Params} {img : Image} :
    img.headerAccepted p = true ↔ 8 ≤ img.len.toNat ∧ img.bytesFrom 0 8 ∈ p.acceptedHeaders := by
  rw [Image.headerAccepted, Bool.and_eq_true, decide_eq_true_eq, List.contains_iff_mem]
  rfl

theorem Image.headerAccepted_eq_false {p : Params} {img : Image} :
    img.headerAccepted p = false ↔ img.len.toNat < 8 ∨ img.bytesFrom 0 8 ∉ p.acceptedHeaders := by
  rw [← Bool.not_eq_true, Image.headerAccepted_iff, not_and_or, Nat.not_le]

/-- The registers of an accepted start (R25, R35). -/
theorem State.start_regs_get {img : Image} (h : img.headerAccepted s.params = true) (j : RegName) :
    (State.start img s).regs.get j = s.params.resetNan := by
  rw [State.start_accepted s img h]
  cases j <;> rfl

theorem State.start_status_accepted {img : Image} (h : img.headerAccepted s.params = true) :
    (State.start img s).status = .running := by
  rw [State.start_accepted s img h]

/-! ### Runs that show the same -/

/-- The state with another count of free values. -/
def State.withDraws (d : Nat) (s : State) : State := { s with draws := d }

/-- A finished state shows its buffer, its ports and STATUS only (R262, R300). -/
theorem State.SameRun.of_not_running (hparams : s.params = t.params) (hprog : s.prog = t.prog)
    (hstatus : s.status = t.status) (hinput : s.input = t.input) (htaken : s.taken = t.taken)
    (houtput : s.output = t.output) (hpend : s.pendingStarts = t.pendingStarts) (hrun : s.status ≠ .running) :
    State.SameRun s t :=
  ⟨hparams, hprog, hstatus, hinput, htaken, houtput, hpend, fun h => absurd h hrun⟩

theorem sameRun_withDraws (d : Nat) (s : State) : State.SameRun (s.withDraws d) s :=
  ⟨rfl, rfl, rfl, rfl, rfl, rfl, rfl, fun _ => ⟨rfl, rfl, rfl, rfl⟩⟩

theorem unread_withDraws (d : Nat) : Unread (State.withDraws d) SameRunOutcome :=
  ⟨fun _ => rfl, fun _ => rfl, fun _ => rfl, fun _ _ => rfl, sameRun_withDraws d,
    fun _ _ => .of_not_running rfl rfl rfl rfl rfl rfl rfl nofun,
    fun s => sameRun_withDraws d s.halt, fun _ => .of_not_running rfl rfl rfl rfl rfl rfl rfl nofun⟩

theorem keepsOs_withDraws (d : Nat) : KeepsOs (State.withDraws d) := ⟨fun _ => rfl, fun _ _ => rfl⟩

theorem keepsCs_withDraws (d : Nat) : KeepsCs (State.withDraws d) := ⟨fun _ => rfl, fun _ _ => rfl⟩

theorem keepsPorts_withDraws (d : Nat) : KeepsPorts (State.withDraws d) :=
  ⟨fun _ => rfl, fun _ => rfl, fun _ _ _ => rfl, fun _ _ => rfl, fun _ _ => rfl⟩

/-- No instruction shows how many free values have been drawn. -/
theorem sameRunOutcome_exec_withDraws (i : Instr) (d : Nat) (s : State) :
    SameRunOutcome (exec i (s.withDraws d)) (exec i s) :=
  (unread_withDraws d).exec_of_keepsCs (keepsOs_withDraws d) (keepsCs_withDraws d) (keepsPorts_withDraws d) i s

/-- While a run goes on, two machines that show the same run differ in the count of free values alone. -/
theorem State.SameRun.eq_withDraws (h : State.SameRun s t) (hrun : s.status = .running) : s = t.withDraws s.draws := by
  obtain ⟨hparams, hprog, hstatus, hinput, htaken, houtput, hpend, hrest⟩ := h
  obtain ⟨hip, hregs, hos, hcs⟩ := hrest hrun
  cases s
  cases t
  simp_all only [State.withDraws]

/-- A start does not look at what ran before (R300). -/
theorem sameRun_start (img : Image) (hparams : s.params = t.params) (hinput : s.input = t.input)
    (hpend : s.pendingStarts = t.pendingStarts) : State.SameRun (State.start img s) (State.start img t) := by
  cases hacc : img.headerAccepted s.params with
  | false =>
    rw [State.start_rejected s img hacc, State.start_rejected t img (hparams ▸ hacc)]
    exact .of_not_running hparams rfl rfl hinput rfl rfl hpend nofun
  | true =>
    rw [State.start_accepted s img hacc, State.start_accepted t img (hparams ▸ hacc)]
    exact ⟨hparams, rfl, rfl, hinput, rfl, rfl, hpend, fun _ => ⟨rfl, by rw [hparams], rfl, rfl⟩⟩

theorem sameRunOutcome_stopped (h : State.SameRun s t) : SameRunOutcome s.stopped t.stopped := by
  rw [State.stopped, State.stopped, ← h.pendingStarts, ← h.status]
  split
  · exact sameRun_start _ h.params h.input rfl
  · split
    · rfl
    · exact h

theorem sameRunOutcome_step_withDraws (d : Nat) (hrun : s.status = .running) :
    SameRunOutcome (step (s.withDraws d)) (step s) := by
  have hrun' : (s.withDraws d).status = .running := hrun
  have hfetch : (s.withDraws d).fetch = s.fetch := rfl
  cases hf : s.fetch with
  | error e =>
    rw [step_fetch_error hrun' (hfetch.trans hf), step_fetch_error hrun hf]
    exact (unread_withDraws d).raise _ s
  | ok i =>
    rw [step_fetch_ok hrun' (hfetch.trans hf), step_fetch_ok hrun hf]
    exact sameRunOutcome_exec_withDraws i d s

/-- Two machines that show the same run show the same run after a step. -/
theorem sameRunOutcome_step (h : State.SameRun s t) : SameRunOutcome (step s) (step t) := by
  by_cases hrun : s.status = .running
  · rw [h.eq_withDraws hrun]
    exact sameRunOutcome_step_withDraws _ (h.status ▸ hrun)
  · rw [step_not_running hrun, step_not_running (h.status ▸ hrun)]
    exact sameRunOutcome_stopped h

/-- Outcomes that show the same run are both next states or the same refusal: there is no fault. -/
theorem SameRunOutcome.cases {x y : Result} (h : SameRunOutcome x y) :
    (∃ s t, x = .next s ∧ y = .next t ∧ State.SameRun s t) ∨ ∃ r, x = .refused r ∧ y = .refused r :=
  match x, y, h with
  | .next s, .next t, h => .inl ⟨s, t, rfl, rfl, h⟩
  | .refused r, .refused _, rfl => .inr ⟨r, rfl, rfl⟩
  | .fault f, _, _ => nomatch f

theorem sameRunOutcome_run (k : Nat) (h : State.SameRun s t) :
    SameRunOutcome (Host.Core.run core k s) (Host.Core.run core k t) := by
  induction k generalizing s t with
  | zero => exact h
  | succ k ih =>
    obtain ⟨s', t', hs, ht, hnext⟩ | ⟨r, hs, ht⟩ := (sameRunOutcome_step h).cases
    · rw [run_succ hs, run_succ ht]
      exact ih hnext
    · rw [run_refused hs, run_refused ht]
      rfl

/-! ### IN that waits, and a jump to itself -/

theorem State.awaitsInput_iff :
    s.awaitsInput = true ↔ s.status = .running ∧ s.fetch = .ok .in_ ∧ s.input = [] := by
  cases hf : s.fetch <;> simp [State.awaitsInput, hf, and_assoc]

theorem exec_in_empty (h : s.input = []) : exec .in_ s = .next s := execIn_eq_next.2 (.inl ⟨h, rfl⟩)

theorem exec_in_room {v : Word} {rest : List Word} (h : s.input = v :: rest) (hc : s.os.length ≠ s.params.opstackCap) :
    exec .in_ s = .next { s with input := rest, taken := s.taken + 1, os := v :: s.os, ip := s.ip + 1 } :=
  execIn_eq_next.2 (.inr ⟨v, rest, h, .inr ⟨hc, rfl⟩⟩)

/-- Nine bytes back from the field end is the instruction itself (R76, R203). -/
theorem State.target_self (s : State) : s.target (BitVec.ofNat 64 (2 ^ 64 - 9)) = s.ip := by
  rw [State.target_eq, BitVec.add_assoc]
  exact BitVec.add_zero _

theorem exec_jmp_inBounds {disp : Word} (h : s.InBounds (s.ip + 9 + disp)) :
    exec (.jmp disp) s = .next { s with ip := s.ip + 9 + disp } :=
  jumpTo_inBounds h

end Sys2Proof.Machine

namespace Sys2Proof.Proofs

open Sys2Proof.Machine

/-- Settles O8: STATUS at reset is IDLE, and the rest are the fields of an accepted start. -/
theorem startOfRunState : Obligations.StartOfRunState := by
  refine ⟨rfl, rfl, fun s img h => ?_⟩
  have hregs := State.start_regs_get h
  rw [State.start_accepted s img h] at hregs ⊢
  exact ⟨rfl, hregs, rfl, rfl, rfl, rfl⟩

/-- Settles O9: the step starts the oldest request, and the two clauses are the two verdicts on its header. -/
theorem startSequence : Obligations.StartSequence := by
  intro s img rest hrun hp
  refine ⟨fun hbad => ⟨_, step_start hrun hp, ?_⟩, fun hlen hhdr => ⟨_, step_start hrun hp, ?_⟩⟩
  · rw [State.start_rejected { s with pendingStarts := rest } img (Image.headerAccepted_eq_false.2 hbad)]
    exact ⟨rfl, rfl, rfl, rfl, rfl, rfl, rfl⟩
  · have hacc : img.headerAccepted s.params = true := Image.headerAccepted_iff.2 ⟨hlen, hhdr⟩
    have hregs := State.start_regs_get (s := { s with pendingStarts := rest }) hacc
    rw [State.start_accepted { s with pendingStarts := rest } img hacc] at hregs ⊢
    exact ⟨rfl, rfl, hregs, rfl, rfl, rfl, rfl, rfl, rfl, rfl, rfl⟩

/-- Settles O10: the first step starts the same buffer on both machines, which then show the same run, and every later step keeps
that. -/
theorem nothingCarriesOverBetweenRuns : Obligations.NothingCarriesOverBetweenRuns := by
  intro s t img rest k hs ht hparams hinput hps hpt
  rw [run_succ (step_start hs hps), run_succ (step_start ht hpt)]
  exact sameRunOutcome_run k (sameRun_start img hparams hinput rfl)

/-- Settles O11: raising writes STATUS and free values only, and a machine in ERROR takes the oldest request or stays. -/
theorem errorLeavesOnlyByStart : Obligations.ErrorLeavesOnlyByStart := by
  refine ⟨fun s k => errsWith_raise k s, fun s k hk => ?_⟩
  have hrun : s.status ≠ .running := by rw [hk]; nofun
  exact ⟨fun hp n => run_stay (step_stays hrun (by rw [hk]; nofun) hp) n, fun img rest hp => step_start hrun hp⟩

/-- Settles O12: with no request, IDLE and HALTED step to themselves, and REFUSED has no next state. -/
theorem stoppedUntilStart : Obligations.StoppedUntilStart := by
  intro s hp
  refine ⟨fun hst n => ?_, fun href => step_refused href hp⟩
  obtain hst | hst := hst <;> exact run_stay (step_stays (by rw [hst]; nofun) (by rw [hst]; nofun) hp) n

/-- Settles O26: an IN on an empty port steps to the same state, and on the port with the one value it takes and pushes it. -/
theorem inWaitsForHost : Obligations.InWaitsForHost := by
  intro s hs
  obtain ⟨hrun, hf, hin⟩ := State.awaitsInput_iff.1 hs
  refine ⟨fun n => run_stay (by rw [step_fetch_ok hrun hf, exec_in_empty hin]) n, fun v hc => ?_⟩
  have hone : (s.supplyInput v).input = [v] := by rw [State.supplyInput_input, hin, List.nil_append]
  have hf' : (s.supplyInput v).fetch = .ok .in_ := hf
  rw [step_fetch_ok (s := s.supplyInput v) hrun hf', exec_in_room hone hc, ← hin]
  rfl

/-- Settles O47: the target of the displacement -9 is `ip`, so the step leaves the state as it is, and so does every run. -/
theorem selfJumpLoopsForever : Obligations.SelfJumpLoopsForever := by
  intro s n hrun hf hin
  refine run_stay ?_ n
  rw [step_fetch_ok hrun hf]
  exact jumpTo_eq_next.2 (.inr (by rw [State.target_self]; exact ⟨State.targetOk_iff_inBounds.2 hin, rfl⟩))

/-- Settles O50: a start writes RESET_NAN into every register, a completing step writes at most the register its POP_REG names,
and a PUSH_REG copies. -/
theorem unwrittenRegisterReadsResetNan : Obligations.UnwrittenRegisterReadsResetNan := by
  refine ⟨fun s img h j => by rw [State.start_regs_get h, State.start_params], fun s t j hrun hj hstep ht hother => ?_,
    fun s reg j hr hj hc => ?_, fun s img reg h hreg hcap => ?_⟩
  · obtain ⟨e, -, rfl⟩ | ⟨i, hf, hexec⟩ := step_running_cases hrun hstep
    · exact absurd ht (State.not_completed_raised _ _)
    · rw [(exec_keeps_params hexec).1, ← hj]
      obtain hregs | ⟨reg, j', v, rfl, hj', hregs⟩ := exec_regs hexec ht
      · rw [hregs]
      · rw [hregs]
        exact Regs.get_set_other _ (fun he => hother reg hf (by rw [he, hj'])) v
  · rw [← hj]
    exact exec_pushReg_room hr hc
  · obtain ⟨j, hj⟩ := regName_isSome hreg
    have hroom : (State.start img s).os.length ≠ (State.start img s).params.opstackCap := by
      rw [State.start_accepted s img h]
      exact Nat.ne_of_lt hcap
    refine ⟨_, exec_pushReg_room hj hroom, ?_, State.start_status_accepted h⟩
    rw [State.start_regs_get h, State.start_accepted s img h]

end Sys2Proof.Proofs
end

section
/-! SUPPORT. The ordered comparisons and truth values (45_relational.md R230 to R236; general knowledge G3). -/

namespace Sys2Proof.Machine

/-! ### Numbers and sizes -/

namespace F64

theorem units_zero : units 0 = 0 := by decide

theorem units_pos {m : Nat} : 0 < units m ↔ 0 < m := by
  have h := units_le (m := m) (n := 0)
  rw [units_zero] at h
  omega

theorem value_of_sign {w : Word} (h : sign w = true) : value w = -(units (mag w) : Int) := if_pos h

theorem value_of_not_sign {w : Word} (h : sign w = false) : value w = units (mag w) := by
  rw [value, h]
  rfl

/-- A number is above zero exactly if its sign bit is clear and it is no zero. -/
theorem value_pos {w : Word} : 0 < value w ↔ sign w = false ∧ mag w ≠ 0 := by
  have hpos := units_pos (m := mag w)
  cases hs : sign w with
  | true => simp [value_of_sign hs]
  | false => rw [value_of_not_sign hs, Int.natCast_pos, hpos, Nat.pos_iff_ne_zero]; simp

theorem isNaN_eq_false {w : Word} : isNaN w = false ↔ mag w ≤ infMag := by
  rw [isNaN, decide_eq_false_iff_not, Nat.not_lt]

theorem isFinite_iff {w : Word} : isFinite w = true ↔ mag w < infMag := decide_eq_true_iff

theorem isNaN_of_isFinite {w : Word} (h : isFinite w = true) : isNaN w = false :=
  isNaN_eq_false.2 (Nat.le_of_lt (isFinite_iff.1 h))

/-- A number other than the infinity of a sign has not both that sign and the magnitude of infinity. -/
theorem mag_lt_infMag {w : Word} {negative : Bool} (hn : isNaN w = false) (hw : w ≠ pack negative infMag)
    (hs : sign w = negative) : mag w < infMag := by
  refine Nat.lt_of_le_of_ne (isNaN_eq_false.1 hn) fun hm => hw ?_
  rw [← hs, ← hm, pack_sign_mag]

theorem value_neg_infinity_lt {w : Word} (hn : isNaN w = false) (hw : w ≠ pack true infMag) :
    -(units infMag : Int) < value w := by
  cases hs : sign w with
  | true =>
    have := units_strictMono (mag_lt_infMag hn hw hs)
    rw [value_of_sign hs]
    omega
  | false =>
    have : 0 < units infMag := units_pos.2 (by decide)
    rw [value_of_not_sign hs]
    omega

theorem value_lt_infinity {w : Word} (hn : isNaN w = false) (hw : w ≠ pack false infMag) :
    value w < (units infMag : Int) := by
  cases hs : sign w with
  | false =>
    have := units_strictMono (mag_lt_infMag hn hw hs)
    rw [value_of_not_sign hs]
    omega
  | true =>
    have : 0 < units infMag := units_pos.2 (by decide)
    rw [value_of_sign hs]
    omega

theorem toRat_lt_toRat {a b : Word} : toRat a < toRat b ↔ value a < value b := by
  rw [toRat, toRat, div_lt_div_iff_of_pos_right (by positivity), Int.cast_lt]

end F64

/-! ### Comparisons -/

theorem flt_iff {a b : Word} :
    flt a b = true ↔ F64.isNaN a = false ∧ F64.isNaN b = false ∧ F64.value a < F64.value b := by
  simp [flt, and_assoc]

theorem fgt_eq_flt (a b : Word) : fgt a b = flt b a := by
  rw [fgt, flt, Bool.and_comm (!F64.isNaN a)]

theorem flt_of_nan {a b : Word} (h : F64.isNaN a = true ∨ F64.isNaN b = true) : flt a b = false := by
  obtain h | h := h <;> simp [flt, h]

theorem fgt_of_nan {a b : Word} (h : F64.isNaN a = true ∨ F64.isNaN b = true) : fgt a b = false := by
  rw [fgt_eq_flt]
  exact flt_of_nan h.symm

theorem flt_self (a : Word) : flt a a = false := by simp [flt]

/-- On finite operands the comparison is that of the numbers they stand for (R230). -/
theorem flt_finite {a b : Word} (ha : F64.isFinite a = true) (hb : F64.isFinite b = true) :
    flt a b = true ↔ F64.toRat a < F64.toRat b := by
  rw [flt_iff, F64.toRat_lt_toRat]
  simp [F64.isNaN_of_isFinite ha, F64.isNaN_of_isFinite hb]

/-- Of two numbers with clear signs the one with the larger pattern is larger. -/
theorem flt_of_clear_signs {a b : Word} (hna : F64.isNaN a = false) (hnb : F64.isNaN b = false)
    (ha : F64.sign a = false) (hb : F64.sign b = false) : flt a b = true ↔ F64.mag a < F64.mag b := by
  rw [flt_iff, F64.value_of_not_sign ha, F64.value_of_not_sign hb, Int.ofNat_lt, ← Nat.not_le, F64.units_le, Nat.not_le]
  simp [hna, hnb]

theorem flt_neg_infinity {a : Word} (hn : F64.isNaN a = false) (ha : a ≠ 0xFFF0000000000000) :
    flt 0xFFF0000000000000 a = true :=
  flt_iff.2 ⟨rfl, hn, F64.value_neg_infinity_lt hn ha⟩

theorem fgt_infinity {a : Word} (hn : F64.isNaN a = false) (ha : a ≠ 0x7FF0000000000000) :
    fgt 0x7FF0000000000000 a = true := by
  rw [fgt_eq_flt]
  exact flt_iff.2 ⟨hn, rfl, F64.value_lt_infinity hn ha⟩

/-! ### Truth values -/

/-- True are exactly the strictly positive values (R231). -/
theorem pos_iff {x : Word} : pos x = true ↔ F64.isNaN x = false ∧ F64.isZero x = false ∧ F64.sign x = false := by
  have hzero : F64.value F64.posZero = 0 := by decide
  have hnan : F64.isNaN F64.posZero = false := by decide
  rw [pos, fgt_eq_flt, flt_iff, hzero, F64.value_pos, F64.isZero, beq_eq_false_iff_ne]
  simp [hnan, and_comm]

theorem pos_eq (x : Word) : pos x = (!F64.isNaN x && !F64.isZero x && !F64.sign x) := by
  rw [Bool.eq_iff_iff, pos_iff]
  simp [and_assoc]

theorem pos_of_nan {x : Word} (h : F64.isNaN x = true) : pos x = false := fgt_of_nan (.inl h)

theorem boolWord_cases (b : Bool) : boolWord b = 0x3FF0000000000000 ∨ boolWord b = 0xBFF0000000000000 := by
  cases b
  · exact .inr rfl
  · exact .inl rfl

theorem boolWord_eq_true {b : Bool} : boolWord b = 0x3FF0000000000000 ↔ b = true := by
  cases b <;> decide

theorem orWord_eq (a b : Word) :
    orWord a b = if pos a = true ∨ pos b = true then 0x3FF0000000000000 else 0xBFF0000000000000 := by
  simp [orWord, boolWord, trueWord, falseWord]

theorem andWord_eq (a b : Word) :
    andWord a b = if pos a = true ∧ pos b = true then 0x3FF0000000000000 else 0xBFF0000000000000 := by
  simp [andWord, boolWord, trueWord, falseWord]

theorem notWord_boolean (x : Word) :
    notWord .boolean x = if pos x = true then 0xBFF0000000000000 else 0x3FF0000000000000 := by
  cases h : pos x <;> simp [notWord, boolWord, trueWord, falseWord, h]

/-! ### Operators on too few operands -/

theorem errsWith_of_eq_raise {k : ErrorKind} {s : State} {r : Result} (h : r = raise k s) : ErrsWith k s r :=
  h ▸ errsWith_raise k s

theorem binaryOp_errsWith (f : Word → Word → Word) {s : State} (h : s.os.length < 2) :
    ErrsWith .notEnoughArgs s (binaryOp f s) :=
  errsWith_of_eq_raise (binaryOp_few h)

theorem unaryOp_errsWith (f : Word → Word) {s : State} (h : s.os.length < 1) :
    ErrsWith .notEnoughArgs s (unaryOp f s) :=
  errsWith_of_eq_raise (unaryOp_few h)

/-- On one operand only the stack and `ip` change; the instruction is one byte long (R70, R153). -/
theorem unaryOp_cons_frame (f : Word → Word) {s : State} {x : Word} {rest : List Word} (h : s.os = x :: rest) :
    unaryOp f s = .next { s with os := f x :: rest, ip := s.ip + 1 } :=
  unaryOp_cons h

/-! ### JIF -/

theorem exec_jif_taken {s : State} {disp v : Word} {rest : List Word} (ho : s.os = v :: rest) (hv : pos v = true)
    (ht : s.InBounds (s.ip + 9 + disp)) :
    exec (.jif disp) s = .next { s with os := rest, ip := s.ip + 9 + disp } :=
  execJif_eq_next.2 (.inr ⟨v, rest, ho, .inr (.inl ⟨State.targetOk_iff_inBounds.2 ht, hv, rfl⟩)⟩)

theorem exec_jif_untaken {s : State} {disp v : Word} {rest : List Word} (ho : s.os = v :: rest) (hv : pos v = false)
    (ht : s.params.jifUntakenCheck = false ∨ s.InBounds (s.ip + 9 + disp)) :
    exec (.jif disp) s = .next { s with os := rest, ip := s.ip + 9 } :=
  execJif_eq_next.2 (.inr ⟨v, rest, ho, .inr (.inr ⟨ht.symm.imp State.targetOk_iff_inBounds.2 id, hv, rfl⟩)⟩)

end Sys2Proof.Machine

namespace Sys2Proof.Proofs

open Sys2Proof.Machine

/-- Settles O59: a comparison of two numbers compares their sizes in units, and no number's size reaches that of an infinity of
its sign. -/
theorem orderedComparisons : Obligations.OrderedComparisons := by
  refine ⟨fun a b h => ⟨flt_of_nan h, fgt_of_nan h⟩, fun a b ha hb => ⟨flt_finite ha hb, ?_⟩,
    fun a hn ha => flt_neg_infinity hn ha, fun a hn ha => fgt_infinity hn ha, fgt_eq_flt⟩
  rw [fgt_eq_flt]
  exact flt_finite hb ha

/-- Settles O60: the four results are boolean words, and a value is above `+0.0` exactly if it is a number that is no zero and has
a clear sign bit. -/
theorem truthValues : Obligations.TruthValues := by
  refine ⟨fun a b w hw => ?_, fun a b => ⟨?_, ?_⟩, fun x => pos_iff, fun s disp v rest ho ht => ?_, by decide, by decide⟩
  · simp only [List.mem_cons, List.not_mem_nil, or_false] at hw
    obtain rfl | rfl | rfl | rfl := hw <;> exact boolWord_cases _
  · rw [orWord, boolWord_eq_true, Bool.or_eq_true]
  · rw [andWord, boolWord_eq_true, Bool.and_eq_true]
  · split
    · exact exec_jif_taken ho ‹_› ht
    · exact exec_jif_untaken ho (Bool.eq_false_iff.2 ‹_›) (.inr ht)

/-- Settles O31: both are the two-operand operation on a boolean word of the comparison. -/
theorem lessAndGreater : Obligations.LessAndGreater := by
  refine ⟨fun s => ⟨rfl, rfl, fun a b rest ho => ⟨binaryOp_cons_frame lessWord ho, binaryOp_cons_frame greaterWord ho⟩,
    fun h => ⟨binaryOp_errsWith _ h, binaryOp_errsWith _ h⟩⟩, fun a b h => ⟨flt_of_nan h, fgt_of_nan h⟩,
    fun a => ⟨flt_self a, by rw [fgt_eq_flt, flt_self]⟩, by decide, fgt_infinity (by decide) (by decide), ?_, ?_⟩
  · exact (flt_of_clear_signs rfl rfl rfl rfl).2 (by decide)
  · rw [fgt_eq_flt, Bool.eq_false_iff, ne_eq, flt_of_clear_signs rfl rfl rfl rfl]
    decide

/-- Settles O32: both are the two-operand operation on a boolean word of the operands' truth values. -/
theorem orAndAnd : Obligations.OrAndAnd := by
  refine ⟨fun s => ⟨rfl, rfl, fun a b rest ho => ?_, fun h => ⟨binaryOp_errsWith _ h, binaryOp_errsWith _ h⟩⟩,
    by decide, fun n hn => ?_, ?_, ?_, ?_, ?_⟩
  · rw [← orWord_eq, ← andWord_eq]
    exact ⟨binaryOp_cons_frame orWord ho, binaryOp_cons_frame andWord ho⟩
  · have hhalf : pos 0x3FE0000000000000 = true := pos_iff.2 (by decide)
    rw [orWord, andWord, pos_of_nan hn, hhalf, Bool.and_false]
    exact ⟨rfl, rfl⟩
  all_goals
    simp only [orWord, andWord, pos_eq]
    decide

/-- Settles O33: NOT is the one-operand operation on the function of its mode. -/
theorem notNegates : Obligations.NotNegates := by
  refine ⟨fun s => ⟨rfl, fun x rest ho hm => ?_, fun x rest ho hm => ?_, fun ho => unaryOp_errsWith _ (by simp [ho])⟩,
    fun m => ?_⟩
  · rw [exec, execNot, hm]
    exact unaryOp_cons_frame _ ho
  · rw [exec, execNot, hm, unaryOp_cons_frame _ ho, notWord_boolean]
  · cases m with
    | negate => decide
    | boolean =>
      rw [notWord, notWord, pos_eq, pos_eq]
      decide

end Sys2Proof.Proofs
end

section
/-! SUPPORT. What each instruction answers (41_control_io.md, 42_arithmetic.md, 43_stack.md, 44_control_flow.md), one lemma for
each way it can end. -/

namespace Sys2Proof.Machine

variable {s : State}

/-! ### Totality -/

theorem unread_id : Unread id (fun _ r => ∃ t, r = .next t) :=
  ⟨fun _ => rfl, fun _ => rfl, fun _ => rfl, fun _ _ => rfl, fun s => ⟨s, rfl⟩, fun k s => ⟨s.raised k, rfl⟩,
    fun s => ⟨s.halt, rfl⟩, fun s => ⟨s.refuse, rfl⟩⟩

/-- Every operation hands its state on to what follows it or raises, so every instruction answers a next state (R110). -/
theorem exec_answers (i : Instr) (s : State) : ∃ t, exec i s = .next t :=
  unread_id.exec_of_keepsCs ⟨fun _ => rfl, fun _ _ => rfl⟩ ⟨fun _ => rfl, fun _ _ => rfl⟩
    ⟨fun _ => rfl, fun _ => rfl, fun _ _ _ => rfl, fun _ _ => rfl, fun _ _ => rfl⟩ i s

/-! ### STATUS -/

theorem ErrorKind.code_le (k : ErrorKind) : k.code ≤ 9 := by cases k <;> decide

theorem Status.word_lt (st : Status) : st.stateCode + 16 * st.kindCode < 2 ^ 8 := by
  cases st with
  | error k =>
    have := k.code_le
    simp only [Status.stateCode, Status.kindCode]
    omega
  | idle | running | halted | refused => decide

theorem Status.word_shift (st : Status) : st.word >>> 8 = 0 := by
  have h := st.word_lt
  apply BitVec.eq_of_toNat_eq
  rw [Status.word, BitVec.toNat_ushiftRight, BitVec.toNat_ofNat, Nat.shiftRight_eq_div_pow,
    Nat.mod_eq_of_lt (by omega), Nat.div_eq_of_lt h]
  rfl

/-! ### Control and I/O -/

theorem exec_in_full {v : Word} {rest : List Word} (h : s.input = v :: rest) (hc : s.os.length = s.params.opstackCap) :
    exec .in_ s = raise .outOfMemory { s with input := rest, taken := s.taken + 1 } :=
  execIn_eq_next.2 (.inr ⟨v, rest, h, .inl ⟨hc, rfl⟩⟩)

theorem exec_out_cons {v : Word} {rest : List Word} (h : s.os = v :: rest) :
    exec .out s = .next { s with os := rest, output := s.output ++ [v], ip := s.ip + 1 } :=
  execOut_eq_next.2 (.inr ⟨v, rest, h, rfl⟩)

theorem exec_out_nil (h : s.os = []) : exec .out s = raise .popFromEmptyStack s := execOut_eq_next.2 (.inl ⟨h, rfl⟩)

/-! ### Operators -/

theorem binaryOp_arguments (f : Word → Word → Word) (s : State) :
    (s.os.length < 2 → ErrsWith .notEnoughArgs s (binaryOp f s)) ∧
      (2 ≤ s.os.length → ∃ t, binaryOp f s = .next t ∧ t.status = s.status ∧ t.os.length + 2 = s.os.length + 1) := by
  refine ⟨binaryOp_errsWith f, fun h => ?_⟩
  match ho : s.os, h with
  | b :: a :: rest, _ => exact ⟨_, binaryOp_cons ho, rfl, rfl⟩

theorem unaryOp_arguments (f : Word → Word) (s : State) :
    (s.os.length < 1 → ErrsWith .notEnoughArgs s (unaryOp f s)) ∧
      (1 ≤ s.os.length → ∃ t, unaryOp f s = .next t ∧ t.status = s.status ∧ t.os.length + 1 = s.os.length + 1) := by
  refine ⟨unaryOp_errsWith f, fun h => ?_⟩
  match ho : s.os, h with
  | x :: rest, _ => exact ⟨_, unaryOp_cons ho, rfl, rfl⟩

/-! ### Stack moves -/

theorem exec_popReg_unknown {reg : Byte} (h : 3 < reg.toNat) : exec (.popReg reg) s = raise .unknownRegister s :=
  withReg_none (Nat.not_le_of_lt h) s _

theorem exec_popReg_nil {reg : Byte} (h : reg.toNat ≤ 3) (ho : s.os = []) :
    exec (.popReg reg) s = raise .popFromEmptyStack s := by
  obtain ⟨j, hj⟩ := regName_isSome h
  exact execPopReg_eq_next.2 (.inr ⟨j, hj, .inl ⟨ho, rfl⟩⟩)

theorem exec_pushVal_room (imm : Word) (hc : s.os.length ≠ s.params.opstackCap) :
    exec (.pushVal imm) s = .next { s with os := imm :: s.os, ip := s.ip + 9 } :=
  execPushVal_eq_next.2 (.inr ⟨hc, rfl⟩)

theorem exec_pushVal_full (imm : Word) (hc : s.os.length = s.params.opstackCap) :
    exec (.pushVal imm) s = raise .outOfMemory s :=
  execPushVal_eq_next.2 (.inl ⟨hc, rfl⟩)

theorem exec_pushReg_unknown {reg : Byte} (h : 3 < reg.toNat) : exec (.pushReg reg) s = raise .unknownRegister s :=
  withReg_none (Nat.not_le_of_lt h) s _

theorem exec_pushReg_full {reg : Byte} (h : reg.toNat ≤ 3) (hc : s.os.length = s.params.opstackCap) :
    exec (.pushReg reg) s = raise .outOfMemory s := by
  obtain ⟨j, hj⟩ := regName_isSome h
  exact execPushReg_eq_next.2 (.inr ⟨j, hj, .inl ⟨hc, rfl⟩⟩)

/-! ### Control flow -/

theorem exec_jif_nil (disp : Word) (h : s.os = []) : exec (.jif disp) s = raise .popFromEmptyStack s :=
  execJif_eq_next.2 (.inl ⟨h, rfl⟩)

theorem exec_jif_outOfBounds {disp v : Word} {rest : List Word} (ho : s.os = v :: rest)
    (hv : pos v = true ∨ s.params.jifUntakenCheck = true) (ht : ¬ s.InBounds (s.ip + 9 + disp)) :
    exec (.jif disp) s = raise .badJumpAddress (s.setOs rest) :=
  execJif_eq_next.2 (.inr ⟨v, rest, ho, .inl ⟨State.targetOk_eq_false.2 ht, hv, rfl⟩⟩)

theorem exec_call_full (disp : Word) (hc : s.cs.length = s.params.callstackCap) :
    exec (.call disp) s = raise .outOfMemory s :=
  execCall_eq_next.2 (.inl ⟨hc, rfl⟩)

theorem exec_call_inBounds {disp : Word} (hc : s.cs.length ≠ s.params.callstackCap)
    (ht : s.InBounds (s.ip + 9 + disp)) :
    exec (.call disp) s = .next { s with cs := (s.ip + 9) :: s.cs, ip := s.ip + 9 + disp } :=
  execCall_eq_next.2 (.inr ⟨hc, .inr ⟨State.targetOk_iff_inBounds.2 ht, rfl⟩⟩)

theorem exec_call_outOfBounds {disp : Word} (hc : s.cs.length ≠ s.params.callstackCap)
    (ht : ¬ s.InBounds (s.ip + 9 + disp)) :
    exec (.call disp) s = raise .badJumpAddress (s.setCs ((s.ip + 9) :: s.cs)) :=
  execCall_eq_next.2 (.inr ⟨hc, .inl ⟨State.targetOk_eq_false.2 ht, rfl⟩⟩)

theorem exec_ret_nil (h : s.cs = []) : exec .ret s = raise .retWithoutCall s := execRet_eq_next.2 (.inl ⟨h, rfl⟩)

theorem exec_ret_cons {r : Word} {rest : List Word} (h : s.cs = r :: rest) :
    exec .ret s = .next { s with cs := rest, ip := r } :=
  execRet_eq_next.2 (.inr ⟨r, rest, h, rfl⟩)

/-- The assembler's displacement for a label leads to the label (R84). -/
theorem State.target_label (s : State) (label : Word) : s.ip + 9 + (label - (s.ip + 1 + 8)) = label := by
  rw [BitVec.add_assoc s.ip 1 8]
  exact add_sub_cancel (s.ip + 9) label

end Sys2Proof.Machine

namespace Sys2Proof.Proofs

open Sys2Proof.Machine

/-- Settles O22: the two codes fit eight bits, and each word is the sum of its codes. -/
theorem statusWordLayout : Obligations.StatusWordLayout := by
  refine ⟨fun s => s.status.word_shift, fun s w hw => ?_⟩
  rw [State.statusWord]
  simp only [List.mem_cons, List.not_mem_nil, or_false, Prod.mk.injEq] at hw
  obtain ⟨h, rfl⟩ | ⟨h, rfl⟩ | ⟨h, rfl⟩ | ⟨h, rfl⟩ | ⟨h, rfl⟩ | ⟨h, rfl⟩ | ⟨h, rfl⟩ | ⟨h, rfl⟩ | ⟨h, rfl⟩ | ⟨h, rfl⟩ |
    ⟨h, rfl⟩ | ⟨h, rfl⟩ | ⟨h, rfl⟩ := hw <;> rw [h] <;> rfl

/-- Settles O23: no operation an instruction is built from faults or refuses. -/
theorem everyInstructionAnswersNextState : Obligations.EveryInstructionAnswersNextState := exec_answers

/-- Settles O24: HALT writes STATUS alone, and of the effects of an instruction only its own leaves HALTED. -/
theorem haltEndsRun : Obligations.HaltEndsRun := by
  refine fun s => ⟨rfl, rfl, fun i t hrun h ht => ?_⟩
  obtain ⟨-, -, hhalt, -⟩ := exec_status hrun h
  exact hhalt.1 ht

/-- Settles O25: the value is taken first, then the capacity decides; with no value nothing happens. -/
theorem inTakesAndPushes : Obligations.InTakesAndPushes :=
  fun _ => ⟨rfl, fun _ _ hin hc => exec_in_room hin hc, fun _ _ hin hc => errsWith_of_eq_raise (exec_in_full hin hc),
    exec_in_empty⟩

/-- Settles O27: the two cases of OUT are those of `pop_os()`. -/
theorem outPopsAndSends : Obligations.OutPopsAndSends :=
  fun _ => ⟨rfl, fun _ _ ho => exec_out_cons ho, fun ho => errsWith_of_eq_raise (exec_out_nil ho)⟩

/-- Settles O29: the ten instructions share the two-operand and the one-operand operation. -/
theorem argumentCount : Obligations.ArgumentCount := by
  intro i n hi s
  simp only [List.mem_cons, List.not_mem_nil, or_false, Prod.mk.injEq] at hi
  obtain ⟨rfl, rfl⟩ | ⟨rfl, rfl⟩ | ⟨rfl, rfl⟩ | ⟨rfl, rfl⟩ | ⟨rfl, rfl⟩ | ⟨rfl, rfl⟩ | ⟨rfl, rfl⟩ | ⟨rfl, rfl⟩ |
    ⟨rfl, rfl⟩ | ⟨rfl, rfl⟩ := hi
  iterate 8 exact binaryOp_arguments _ s
  iterate 2 exact unaryOp_arguments _ s

/-- Settles O30: both are the one-operand operation. -/
theorem unaryOperatorsReplaceTop : Obligations.UnaryOperatorsReplaceTop :=
  fun _ _ _ ho => ⟨unaryOp_cons_frame _ ho, unaryOp_cons_frame _ ho⟩

/-- Settles O35: the register check comes first, then the two cases of `pop_os()`. -/
theorem popRegMovesTopToRegister : Obligations.PopRegMovesTopToRegister := by
  refine fun s reg => ⟨rfl, fun v rest ho => ⟨?_, ?_, ?_, ?_⟩, fun h => errsWith_of_eq_raise (exec_popReg_unknown h),
    fun h ho => errsWith_of_eq_raise (exec_popReg_nil h ho)⟩
  · rintro rfl; exact exec_popReg_cons (j := .rax) rfl ho
  · rintro rfl; exact exec_popReg_cons (j := .rbx) rfl ho
  · rintro rfl; exact exec_popReg_cons (j := .rcx) rfl ho
  · rintro rfl; exact exec_popReg_cons (j := .rdx) rfl ho

/-- Settles O36: the two cases of PUSH_VAL are those of `push_os(v)`. -/
theorem pushValPushesLiteral : Obligations.PushValPushesLiteral :=
  fun _ imm => ⟨rfl, exec_pushVal_room imm, fun hc => errsWith_of_eq_raise (exec_pushVal_full imm hc)⟩

/-- Settles O37: the register check comes first, then the two cases of `push_os(v)`. -/
theorem pushRegPushesCopy : Obligations.PushRegPushesCopy := by
  refine fun s reg => ⟨rfl, fun hc => ⟨?_, ?_, ?_, ?_⟩, fun h => errsWith_of_eq_raise (exec_pushReg_unknown h),
    fun h hc => errsWith_of_eq_raise (exec_pushReg_full h hc)⟩
  · rintro rfl; exact exec_pushReg_room (j := .rax) rfl hc
  · rintro rfl; exact exec_pushReg_room (j := .rbx) rfl hc
  · rintro rfl; exact exec_pushReg_room (j := .rcx) rfl hc
  · rintro rfl; exact exec_pushReg_room (j := .rdx) rfl hc

/-- Settles O38: JMP is the check of its target. -/
theorem jmpJumps : Obligations.JmpJumps :=
  fun _ _ => ⟨rfl, exec_jmp_inBounds, fun ht => errsWith_of_eq_raise (jumpTo_outOfBounds ht)⟩

/-- Settles O39: the value is consumed first, and then its truth value and JIF_UNTAKEN_CHECK say whether the target is
checked. -/
theorem jifJumpsIfPositive : Obligations.JifJumpsIfPositive := by
  refine fun s disp => ⟨rfl, fun v rest ho hv ht => exec_jif_taken ho hv ht,
    fun v rest ho hv ht => exec_jif_untaken ho hv ht, fun v rest ho hv ht => ?_,
    fun ho => errsWith_of_eq_raise (exec_jif_nil disp ho)⟩
  rw [exec_jif_outOfBounds ho hv ht]
  exact errsWith_raise_of_eq rfl rfl rfl rfl rfl rfl

/-- Settles O40: the push of the return address comes first, then the check of the target. -/
theorem callPushesAndJumps : Obligations.CallPushesAndJumps := by
  refine fun s disp => ⟨rfl, exec_call_inBounds, fun hc => errsWith_of_eq_raise (exec_call_full disp hc), fun hc ht => ?_⟩
  rw [exec_call_outOfBounds hc ht]
  exact errsWith_raise_of_eq rfl rfl rfl rfl rfl rfl

/-- Settles O41: the two cases of RET are those of `pop_cs()`. -/
theorem retReturns : Obligations.RetReturns :=
  fun _ => ⟨rfl, fun _ _ hc => exec_ret_cons hc, fun hc => errsWith_of_eq_raise (exec_ret_nil hc)⟩

/-- Settles O42: RSVD22 leaves REFUSED and the ports, and a REFUSED machine without a request has no next state. -/
theorem unnamedOpcodeRefuses : Obligations.UnnamedOpcodeRefuses :=
  fun s => ⟨s.refuse, rfl, rfl, rfl, rfl, rfl, rfl, rfl, rfl, rfl, fun hp => step_refused rfl hp⟩

/-- Settles O43: each pop has one case for a stack with a value and one for the empty stack. -/
theorem popPrimitives : Obligations.PopPrimitives :=
  fun _ next => ⟨fun _ _ ho => popOs_cons ho next, fun ho => errsWith_of_eq_raise (popOs_nil ho next),
    fun _ _ hc => popCs_cons hc next, fun hc => errsWith_of_eq_raise (popCs_nil hc next)⟩

/-- Settles O44: each push compares the depth with its capacity. -/
theorem pushPrimitives : Obligations.PushPrimitives :=
  fun _ _ next => ⟨fun h => errsWith_of_eq_raise (pushOs_full h next), fun h => pushOs_room h next,
    fun h => errsWith_of_eq_raise (pushCs_full h next), fun h => pushCs_room h next⟩

/-- Settles O46: the target of the assembler's displacement is the label, so each jump goes there. -/
theorem assembledJumpReachesLabel : Obligations.AssembledJumpReachesLabel := by
  intro s label hin
  have htarget := State.target_label s label
  have hin' : s.InBounds (s.ip + 9 + (label - (s.ip + 1 + 8))) := by rwa [htarget]
  refine ⟨?_, fun hc => ?_, fun v rest ho hv => ?_⟩
  · rw [exec_jmp_inBounds hin', htarget]
  · rw [exec_call_inBounds hc hin', htarget]
  · rw [exec_jif_taken ho hv hin', htarget]

/-- Settles O48: CALL pushes its field end on the call stack, and RET pops what it finds there. -/
theorem callThenReturn : Obligations.CallThenReturn :=
  fun _ _ hc ht => ⟨_, exec_call_inBounds hc ht, rfl, rfl, rfl, fun _ hu => exec_ret_cons hu⟩

/-- Settles O49: the register byte names one register, which POP_REG sets to the popped pattern and PUSH_REG copies. -/
theorem movesAreBitExact : Obligations.MovesAreBitExact := by
  intro s reg hreg
  obtain ⟨j, hj⟩ := regName_isSome hreg
  refine ⟨fun v rest ho hc => ⟨_, _, exec_popReg_cons hj ho, exec_pushReg_room hj hc, ?_, rfl⟩,
    fun imm hc => ⟨_, _, j, exec_pushVal_room imm hc, exec_popReg_cons hj rfl, hj, Regs.get_set_same _ _ _, rfl⟩⟩
  rw [Regs.get_set_same, ho]

end Sys2Proof.Proofs
end

section
/-! SUPPORT. The five arithmetic operations case by case (42_arithmetic.md R150, R151, R155 to R159; general knowledge G1, G2):
which operands give a NaN, and what the result is for all others. -/

namespace Sys2Proof.Machine.F64

variable {a b x nan : Word}

/-! ### Classes of patterns -/

theorem isNaN_pack (negative : Bool) {m : Nat} (h : m ≤ infMag) : isNaN (pack negative m) = false := by
  rw [isNaN_eq_false, mag_pack _ (Nat.lt_of_le_of_lt h (by decide))]
  exact h

theorem isNaN_nanOf (c : FpCall) : isNaN (nanOf c) = true := by
  rw [nanOf]
  split
  · assumption
  · exact isNaN_or_quiet _

theorem isNaN_negate (w : Word) : isNaN (negate w) = isNaN w := by rw [isNaN, isNaN, mag_negate]

theorem isInf_negate (w : Word) : isInf (negate w) = isInf w := by rw [isInf, isInf, mag_negate]

theorem isInf_iff : isInf x = true ↔ mag x = infMag := beq_iff_eq

theorem isZero_iff : isZero x = true ↔ mag x = 0 := beq_iff_eq

theorem isZero_eq_false : isZero x = false ↔ mag x ≠ 0 := beq_eq_false_iff_ne

theorem isNaN_of_isInf (h : isInf x = true) : isNaN x = false := isNaN_eq_false.2 (isInf_iff.1 h).le

theorem isNaN_of_isZero (h : isZero x = true) : isNaN x = false :=
  isNaN_eq_false.2 (by rw [isZero_iff.1 h]; exact Nat.zero_le _)

theorem isInf_of_isFinite (h : isFinite x = true) : isInf x = false := by
  rw [isInf, beq_eq_false_iff_ne]
  exact Nat.ne_of_lt (isFinite_iff.1 h)

theorem isInf_of_isZero (h : isZero x = true) : isInf x = false := by
  rw [isInf, isZero_iff.1 h]
  rfl

theorem value_negate (w : Word) : value (negate w) = -value w := by
  cases hs : sign w with
  | true => rw [value_of_sign hs, value_of_not_sign (by rw [sign_negate, hs]; rfl), mag_negate, neg_neg]
  | false => rw [value_of_not_sign hs, value_of_sign (by rw [sign_negate, hs]; rfl), mag_negate]

/-- Infinities of the same sign are one pattern. -/
theorem eq_of_isInf (ha : isInf a = true) (hb : isInf b = true) (h : sign a = sign b) : a = b := by
  rw [← pack_sign_mag a, ← pack_sign_mag b, h, isInf_iff.1 ha, isInf_iff.1 hb]

/-! ### Sums -/

/-- The sign of a sum of finite numbers: of an exact zero, negative only if both operands are (R155). -/
def sumNegative (a b : Word) : Bool :=
  if value a + value b = 0 then sign a && sign b else decide (value a + value b < 0)

theorem addNumbers_opposite (ha : isInf a = true) (hb : isInf b = true) (h : sign a ≠ sign b) :
    addNumbers nan a b = nan := by
  simp [addNumbers, ha, hb, h]

theorem addNumbers_left_inf (ha : isInf a = true) (h : isInf b = true → sign a = sign b) : addNumbers nan a b = a := by
  cases hb : isInf b with
  | false => simp [addNumbers, ha, hb]
  | true => simp [addNumbers, ha, hb, h hb]

theorem addNumbers_right_inf (ha : isInf a = false) (hb : isInf b = true) : addNumbers nan a b = b := by
  simp [addNumbers, ha, hb]

/-- A finite sum is rounded once, a zero sum included. -/
theorem addNumbers_finite (ha : isInf a = false) (hb : isInf b = false) :
    addNumbers nan a b = pack (sumNegative a b) (roundMag (value a + value b).natAbs 1) := by
  simp only [addNumbers, ha, hb, Bool.false_eq_true, if_false, sumNegative]
  split
  · next h =>
    have hround : roundMag (0 : Int).natAbs 1 = 0 := by decide
    rw [h, hround]
    split <;> rename_i hs
    · rw [hs]; rfl
    · rw [Bool.eq_false_iff.2 hs]; rfl
  · rfl

/-- Of two numbers only opposite infinities have no sum (R155, G2). -/
theorem isNaN_addNumbers (ha : isNaN a = false) (hb : isNaN b = false)
    (h : ¬ (isInf a = true ∧ isInf b = true ∧ sign a ≠ sign b)) : isNaN (addNumbers nan a b) = false := by
  cases hia : isInf a with
  | true =>
    rw [addNumbers_left_inf hia fun hib => not_ne_iff.1 fun hs => h ⟨hia, hib, hs⟩]
    exact ha
  | false =>
    cases hib : isInf b with
    | true => rw [addNumbers_right_inf hia hib]; exact hb
    | false => rw [addNumbers_finite hia hib]; exact isNaN_pack _ (roundMag_le _ _)

theorem fadd_of_numbers (ha : isNaN a = false) (hb : isNaN b = false) :
    fadd a b = addNumbers (nanOf (.add a b)) a b := by
  simp [fadd, ha, hb]

theorem fsub_of_numbers (ha : isNaN a = false) (hb : isNaN b = false) :
    fsub a b = addNumbers (nanOf (.sub a b)) a (negate b) := by
  simp [fsub, ha, hb]

theorem sumNegative_comm (a b : Word) : sumNegative a b = sumNegative b a := by
  rw [sumNegative, sumNegative, add_comm (value a), Bool.and_comm]

theorem addNumbers_comm (nan' : Word) (h : ¬ (isInf a = true ∧ isInf b = true ∧ sign a ≠ sign b)) :
    addNumbers nan a b = addNumbers nan' b a := by
  have hsign : isInf a = true → isInf b = true → sign a = sign b :=
    fun hia hib => not_ne_iff.1 fun hs => h ⟨hia, hib, hs⟩
  cases hia : isInf a with
  | true =>
    rw [addNumbers_left_inf hia (hsign hia)]
    cases hib : isInf b with
    | true => rw [addNumbers_left_inf hib fun _ => (hsign hia hib).symm, eq_of_isInf hia hib (hsign hia hib)]
    | false => rw [addNumbers_right_inf hib hia]
  | false =>
    cases hib : isInf b with
    | true => rw [addNumbers_right_inf hia hib, addNumbers_left_inf hib fun h => by rw [hia] at h; cases h]
    | false => rw [addNumbers_finite hia hib, addNumbers_finite hib hia, sumNegative_comm, add_comm]

/-! ### Products and quotients -/

/-- The operands of a product that is invalid (G2). -/
def MulInvalid (a b : Word) : Prop :=
  isNaN a = true ∨ isNaN b = true ∨ (isZero a = true ∧ isInf b = true) ∨ (isInf a = true ∧ isZero b = true)

/-- The magnitude of a valid product. -/
def mulMag (a b : Word) : Nat :=
  if isInf a || isInf b then infMag else roundMag (units (mag a) * units (mag b)) (2 ^ 1074)

/-- The operands of a quotient that is invalid (G2). -/
def DivInvalid (a b : Word) : Prop :=
  isNaN a = true ∨ isNaN b = true ∨ (isZero a = true ∧ isZero b = true) ∨ (isInf a = true ∧ isInf b = true)

/-- The magnitude of a valid quotient. -/
def divMag (a b : Word) : Nat :=
  if isInf a then infMag else if isInf b then 0 else if isZero b then infMag
  else roundMag (units (mag a) * 2 ^ 1074) (units (mag b))

theorem fmul_invalid (h : MulInvalid a b) : fmul a b = nanOf (.mul a b) := by
  obtain h | h | ⟨hz, hi⟩ | ⟨hi, hz⟩ := h
  · simp [fmul, h]
  · simp [fmul, h]
  · simp [fmul, hz, hi]
  · simp [fmul, hz, hi]

theorem fmul_valid (h : ¬ MulInvalid a b) : fmul a b = pack (sign a != sign b) (mulMag a b) := by
  simp only [MulInvalid, not_or, not_and, Bool.not_eq_true] at h
  obtain ⟨hna, hnb, hzi, hiz⟩ := h
  simp only [fmul, mulMag, hna, hnb, Bool.or_self, Bool.false_eq_true, if_false]
  split
  · next hinf =>
    have hz : (isZero a || isZero b) = false := by
      rw [Bool.or_eq_true] at hinf
      rw [Bool.or_eq_false_iff]
      obtain hia | hib := hinf
      · refine ⟨Bool.eq_false_iff.2 fun hz => ?_, hiz hia⟩
        rw [isInf_of_isZero hz] at hia
        cases hia
      · refine ⟨Bool.eq_false_iff.2 fun hz => ?_, Bool.eq_false_iff.2 fun hz => ?_⟩
        · rw [hzi hz] at hib
          cases hib
        · rw [isInf_of_isZero hz] at hib
          cases hib
    rw [hz]
    rfl
  · rfl

theorem fdiv_invalid (h : DivInvalid a b) : fdiv a b = nanOf (.div a b) := by
  obtain h | h | ⟨ha, hb⟩ | ⟨ha, hb⟩ := h
  · simp [fdiv, h]
  · simp [fdiv, h]
  · simp [fdiv, ha, hb, isInf_of_isZero ha, isInf_of_isZero hb]
  · simp [fdiv, ha, hb]

theorem fdiv_valid (h : ¬ DivInvalid a b) : fdiv a b = pack (sign a != sign b) (divMag a b) := by
  simp only [DivInvalid, not_or, not_and, Bool.not_eq_true] at h
  obtain ⟨hna, hnb, hzz, hii⟩ := h
  simp only [fdiv, divMag, hna, hnb, Bool.or_self, Bool.false_eq_true, if_false]
  split
  · next hia => rw [hii hia]; rfl
  · split
    · rfl
    · split
      · next hzb =>
        have hza : isZero a = false := Bool.eq_false_iff.2 fun hza => by rw [hzz hza] at hzb; cases hzb
        rw [hza]
        rfl
      · rfl

theorem mulMag_le (a b : Word) : mulMag a b ≤ infMag := by
  rw [mulMag]
  split
  · exact Nat.le_refl _
  · exact roundMag_le _ _

theorem divMag_le (a b : Word) : divMag a b ≤ infMag := by
  rw [divMag]
  split
  · exact Nat.le_refl _
  · split
    · exact Nat.zero_le _
    · split
      · exact Nat.le_refl _
      · exact roundMag_le _ _

theorem mulMag_comm (a b : Word) : mulMag a b = mulMag b a := by
  rw [mulMag, mulMag, Bool.or_comm, Nat.mul_comm]

theorem MulInvalid.symm (h : MulInvalid a b) : MulInvalid b a := by
  obtain h | h | ⟨hz, hi⟩ | ⟨hi, hz⟩ := h
  · exact .inr (.inl h)
  · exact .inl h
  · exact .inr (.inr (.inr ⟨hi, hz⟩))
  · exact .inr (.inr (.inl ⟨hz, hi⟩))

theorem mulInvalid_of_isNaN (h : isNaN (fmul a b) = false) : ¬ MulInvalid a b := fun hinv => by
  rw [fmul_invalid hinv, isNaN_nanOf] at h
  cases h

theorem divInvalid_of_isNaN (h : isNaN (fdiv a b) = false) : ¬ DivInvalid a b := fun hinv => by
  rw [fdiv_invalid hinv, isNaN_nanOf] at h
  cases h

theorem sign_fmul (h : isNaN (fmul a b) = false) : sign (fmul a b) = (sign a != sign b) := by
  rw [fmul_valid (mulInvalid_of_isNaN h), sign_pack _ (Nat.lt_of_le_of_lt (mulMag_le a b) (by decide))]

theorem sign_fdiv (h : isNaN (fdiv a b) = false) : sign (fdiv a b) = (sign a != sign b) := by
  rw [fdiv_valid (divInvalid_of_isNaN h), sign_pack _ (Nat.lt_of_le_of_lt (divMag_le a b) (by decide))]

/-! ### Roots -/

theorem fsqrt_zero (h : isZero x = true) : fsqrt x = x := by
  simp [fsqrt, isNaN_of_isZero h, h]

theorem fsqrt_invalid (h : isNaN x = true ∨ (sign x = true ∧ isZero x = false)) : fsqrt x = nanOf (.sqrt x) := by
  obtain h | ⟨hs, hz⟩ := h
  · simp [fsqrt, h]
  · simp [fsqrt, hs, hz]

theorem fsqrt_positive (hx : isFinite x = true) (hz : isZero x = false) (hs : sign x = false) :
    fsqrt x = pack false (sqrtMag (mag x)) := by
  simp [fsqrt, isNaN_of_isFinite hx, hz, hs, isInf_of_isFinite hx]

theorem sqrtMag_le (m : Nat) : sqrtMag m ≤ infMag := roundMag_le _ _

theorem isNaN_fsqrt (hn : isNaN x = false) (h : ¬ (sign x = true ∧ isZero x = false)) : isNaN (fsqrt x) = false := by
  cases hz : isZero x with
  | true => rw [fsqrt_zero hz]; exact hn
  | false =>
    have hs : sign x = false := Bool.eq_false_iff.2 fun hs => h ⟨hs, hz⟩
    simp only [fsqrt, hn, hz, hs, Bool.false_eq_true, if_false]
    split
    · exact hn
    · exact isNaN_pack _ (sqrtMag_le _)

/-! ### NaN results -/

/-- An operation gives the NaN of its call exactly on the operands of `P`, and a number on all others. -/
def NanExactly (r nan : Word) (P : Prop) : Prop := (P ∧ r = nan) ∨ (¬ P ∧ isNaN r = false)

theorem NanExactly.iff {r : Word} {c : FpCall} {P : Prop} (h : NanExactly r (nanOf c) P) : isNaN r = true ↔ P := by
  obtain ⟨hP, hr⟩ | ⟨hP, hr⟩ := h
  · rw [hr, isNaN_nanOf]
    exact ⟨fun _ => hP, fun _ => rfl⟩
  · rw [hr]
    exact ⟨nofun, fun h => absurd h hP⟩

theorem NanExactly.eq {r : Word} {c : FpCall} {P : Prop} (h : NanExactly r (nanOf c) P) (hn : isNaN r = true) :
    r = nanOf c := by
  obtain ⟨-, hr⟩ | ⟨-, hr⟩ := h
  · exact hr
  · rw [hr] at hn
    cases hn

theorem fadd_of_nan (h : isNaN a = true ∨ isNaN b = true) : fadd a b = nanOf (.add a b) := by
  obtain h | h := h <;> simp [fadd, h]

theorem fsub_of_nan (h : isNaN a = true ∨ isNaN b = true) : fsub a b = nanOf (.sub a b) := by
  obtain h | h := h <;> simp [fsub, h]

/-- A sum gives a NaN on a NaN operand and on opposite infinities. -/
theorem nanExactly_sum {r : Word} {c : FpCall} (hnan : isNaN a = true ∨ isNaN b = true → r = nanOf c)
    (hsum : isNaN a = false → isNaN b = false → r = addNumbers (nanOf c) a b) :
    NanExactly r (nanOf c)
      (isNaN a = true ∨ isNaN b = true ∨ (isInf a = true ∧ isInf b = true ∧ sign a ≠ sign b)) := by
  by_cases h : isNaN a = true ∨ isNaN b = true
  · exact .inl ⟨h.imp_right .inl, hnan h⟩
  · obtain ⟨hna, hnb⟩ := not_or.1 h
    rw [Bool.not_eq_true] at hna hnb
    rw [hsum hna hnb]
    by_cases hinf : isInf a = true ∧ isInf b = true ∧ sign a ≠ sign b
    · exact .inl ⟨.inr (.inr hinf), addNumbers_opposite hinf.1 hinf.2.1 hinf.2.2⟩
    · exact .inr ⟨fun hP => h (hP.imp_right (·.resolve_right hinf)), isNaN_addNumbers hna hnb hinf⟩

theorem fadd_nan (a b : Word) : NanExactly (fadd a b) (nanOf (.add a b))
    (isNaN a = true ∨ isNaN b = true ∨ (isInf a = true ∧ isInf b = true ∧ sign a ≠ sign b)) :=
  nanExactly_sum fadd_of_nan fadd_of_numbers

/-- A difference is a sum with the second operand negated (R156). -/
theorem fsub_nan (a b : Word) : NanExactly (fsub a b) (nanOf (.sub a b))
    (isNaN a = true ∨ isNaN b = true ∨ (isInf a = true ∧ isInf b = true ∧ sign a = sign b)) := by
  have h : NanExactly (fsub a b) (nanOf (.sub a b)) (isNaN a = true ∨ isNaN (negate b) = true ∨
      (isInf a = true ∧ isInf (negate b) = true ∧ sign a ≠ sign (negate b))) :=
    nanExactly_sum (by rw [isNaN_negate]; exact fsub_of_nan) (by rw [isNaN_negate]; exact fsub_of_numbers)
  simpa only [isNaN_negate, isInf_negate, sign_negate, ne_eq, Bool.not_eq_not] using h

theorem fmul_nan (a b : Word) : NanExactly (fmul a b) (nanOf (.mul a b)) (MulInvalid a b) := by
  by_cases h : MulInvalid a b
  · exact .inl ⟨h, fmul_invalid h⟩
  · exact .inr ⟨h, by rw [fmul_valid h]; exact isNaN_pack _ (mulMag_le a b)⟩

theorem fdiv_nan (a b : Word) : NanExactly (fdiv a b) (nanOf (.div a b)) (DivInvalid a b) := by
  by_cases h : DivInvalid a b
  · exact .inl ⟨h, fdiv_invalid h⟩
  · exact .inr ⟨h, by rw [fdiv_valid h]; exact isNaN_pack _ (divMag_le a b)⟩

theorem fsqrt_nan (x : Word) :
    NanExactly (fsqrt x) (nanOf (.sqrt x)) (isNaN x = true ∨ (sign x = true ∧ isZero x = false)) := by
  by_cases h : isNaN x = true ∨ (sign x = true ∧ isZero x = false)
  · exact .inl ⟨h, fsqrt_invalid h⟩
  · obtain ⟨hn, hs⟩ := not_or.1 h
    exact .inr ⟨h, isNaN_fsqrt (Bool.eq_false_iff.2 hn) hs⟩

end Sys2Proof.Machine.F64

namespace Sys2Proof.Proofs

open Sys2Proof.Machine

/-- Settles O51: each operation gives a NaN only as NAN_OF of its own call. -/
theorem nanResultsAreNanOf : Obligations.NanResultsAreNanOf :=
  ⟨F64.isNaN_nanOf,
    fun a b => ⟨(F64.fadd_nan a b).eq, (F64.fsub_nan a b).eq, (F64.fmul_nan a b).eq, (F64.fdiv_nan a b).eq⟩,
    fun x => (F64.fsqrt_nan x).eq⟩

/-- Settles O52: the operands on which each operation gives the NaN of its call are the invalid ones. -/
theorem invalidOperationsGiveNan : Obligations.InvalidOperationsGiveNan :=
  ⟨fun a b => ⟨(F64.fadd_nan a b).iff, (F64.fsub_nan a b).iff, (F64.fmul_nan a b).iff, (F64.fdiv_nan a b).iff⟩,
    fun x => (F64.fsqrt_nan x).iff⟩

end Sys2Proof.Proofs
end

section
/-! SUPPORT. Corner cases of the arithmetic operations, and that each rounds its exact result once (42_arithmetic.md R150, R155 to
R159; general knowledge G1, G2). -/

namespace Sys2Proof.Machine.F64

variable {a b x : Word}

/-! ### Sums and differences -/

theorem fadd_finite (ha : isFinite a = true) (hb : isFinite b = true) :
    fadd a b = pack (sumNegative a b) (roundMag (value a + value b).natAbs 1) := by
  rw [fadd_of_numbers (isNaN_of_isFinite ha) (isNaN_of_isFinite hb),
    addNumbers_finite (isInf_of_isFinite ha) (isInf_of_isFinite hb)]

theorem fsub_finite (ha : isFinite a = true) (hb : isFinite b = true) :
    fsub a b = pack (sumNegative a (negate b)) (roundMag (value a + value (negate b)).natAbs 1) := by
  rw [fsub_of_numbers (isNaN_of_isFinite ha) (isNaN_of_isFinite hb),
    addNumbers_finite (isInf_of_isFinite ha) (by rw [isInf_negate, isInf_of_isFinite hb])]

/-- A number minus itself is `+0.0` (R156). -/
theorem fsub_self (hx : isFinite x = true) : fsub x x = posZero := by
  have hsum : value x + value (negate x) = 0 := by rw [value_negate, add_neg_cancel]
  have hsign : sumNegative x (negate x) = false := by
    rw [sumNegative, if_pos hsum, sign_negate, Bool.and_not_self]
  rw [fsub_finite hx hx, hsum, hsign]
  decide

theorem fadd_inf_finite (ha : isInf a = true) (hb : isFinite b = true) : fadd a b = a := by
  rw [fadd_of_numbers (isNaN_of_isInf ha) (isNaN_of_isFinite hb)]
  exact addNumbers_left_inf ha fun h => by rw [isInf_of_isFinite hb] at h; cases h

theorem fadd_finite_inf (ha : isInf a = true) (hb : isFinite b = true) : fadd b a = a := by
  rw [fadd_of_numbers (isNaN_of_isFinite hb) (isNaN_of_isInf ha)]
  exact addNumbers_right_inf (isInf_of_isFinite hb) ha

theorem fsub_inf_finite (ha : isInf a = true) (hb : isFinite b = true) : fsub a b = a := by
  rw [fsub_of_numbers (isNaN_of_isInf ha) (isNaN_of_isFinite hb)]
  exact addNumbers_left_inf ha fun h => by rw [isInf_negate, isInf_of_isFinite hb] at h; cases h

theorem fsub_finite_inf (ha : isInf a = true) (hb : isFinite b = true) : fsub b a = negate a := by
  rw [fsub_of_numbers (isNaN_of_isFinite hb) (isNaN_of_isInf ha)]
  exact addNumbers_right_inf (isInf_of_isFinite hb) (by rw [isInf_negate, ha])

theorem fadd_comm (h : isNaN (fadd a b) = false) : fadd a b = fadd b a := by
  have hvalid := (fadd_nan a b).iff.not.1 (Bool.eq_false_iff.1 h)
  simp only [not_or, Bool.not_eq_true] at hvalid
  obtain ⟨hna, hnb, hinf⟩ := hvalid
  rw [fadd_of_numbers hna hnb, fadd_of_numbers hnb hna, addNumbers_comm _ hinf]

/-! ### Products and quotients -/

theorem fmul_comm (h : isNaN (fmul a b) = false) : fmul a b = fmul b a := by
  have hvalid := mulInvalid_of_isNaN h
  rw [fmul_valid hvalid, fmul_valid fun h => hvalid h.symm, mulMag_comm, bne_comm]

/-- A quotient by zero is an infinity (R158). -/
theorem isInf_fdiv_zero (hn : isNaN a = false) (hz : isZero a = false) (hb : isZero b = true) :
    isInf (fdiv a b) = true := by
  have hvalid : ¬ DivInvalid a b := by
    simp [DivInvalid, hn, hz, isNaN_of_isZero hb, isInf_of_isZero hb]
  have hmag : divMag a b = infMag := by simp [divMag, isInf_of_isZero hb, hb]
  rw [fdiv_valid hvalid, hmag, isInf_iff, mag_pack _ (by decide)]

/-- A quotient by an infinity is a zero (R158). -/
theorem isZero_fdiv_inf (ha : isFinite a = true) (hb : isInf b = true) : isZero (fdiv a b) = true := by
  have hzero : isZero b = false := Bool.eq_false_iff.2 fun hz => by rw [isInf_of_isZero hz] at hb; cases hb
  have hvalid : ¬ DivInvalid a b := by
    simp [DivInvalid, isNaN_of_isFinite ha, isNaN_of_isInf hb, isInf_of_isFinite ha, hzero]
  have hmag : divMag a b = 0 := by simp [divMag, isInf_of_isFinite ha, hb]
  rw [fdiv_valid hvalid, hmag, isZero_iff, mag_pack _ (by decide)]

/-! ### Exact results as signed fractions of units -/

theorem toRat_eq_value (w : Word) : (toRat w : ℝ) = (value w : ℝ) / 2 ^ 1074 := by
  rw [toRat]
  push_cast
  rfl

/-- A sum in units is its sign times its size. -/
theorem signFactor_sumNegative (a b : Word) :
    ((value a + value b : Int) : ℝ) = signFactor (sumNegative a b) * (((value a + value b).natAbs : ℝ) / (1 : Nat)) := by
  rw [sumNegative, Nat.cast_one, div_one, Nat.cast_natAbs]
  split
  · next h => rw [h]; simp
  · by_cases hneg : value a + value b < 0
    · rw [abs_of_neg hneg]
      simp [signFactor, hneg]
    · rw [abs_of_nonneg (not_lt.1 hneg)]
      simp [signFactor, hneg]

theorem signFactor_bne (p q : Bool) : signFactor (p != q) = signFactor p * signFactor q := by
  cases p <;> cases q <;> simp [signFactor]

theorem signFactor_div (p q : Bool) : signFactor p / signFactor q = signFactor (p != q) := by
  cases p <;> cases q <;> simp [signFactor]

/-- The rounded sum of two finite patterns is their sum rounded once. -/
theorem roundsTo_sum (a b : Word) :
    RoundsTo ((toRat a : ℝ) + (toRat b : ℝ)) (pack (sumNegative a b) (roundMag (value a + value b).natAbs 1)) := by
  have hexact : (toRat a : ℝ) + (toRat b : ℝ) =
      signFactor (sumNegative a b) * (((value a + value b).natAbs : ℝ) / (1 : Nat)) / 2 ^ 1074 := by
    rw [← signFactor_sumNegative, toRat_eq_value, toRat_eq_value, ← add_div, Int.cast_add]
  rw [hexact]
  exact roundsTo_pack _ _ 1 Nat.one_pos

theorem toRat_negate (w : Word) : (toRat (negate w) : ℝ) = -(toRat w : ℝ) := by
  rw [toRat_eq_value, toRat_eq_value, value_negate, Int.cast_neg, neg_div]

theorem fmul_finite (ha : isFinite a = true) (hb : isFinite b = true) :
    fmul a b = pack (sign a != sign b) (roundMag (units (mag a) * units (mag b)) (2 ^ 1074)) := by
  have hvalid : ¬ MulInvalid a b := by
    simp [MulInvalid, isNaN_of_isFinite ha, isNaN_of_isFinite hb, isInf_of_isFinite ha, isInf_of_isFinite hb]
  have hinf : ¬ (isInf a || isInf b) = true := by simp [isInf_of_isFinite ha, isInf_of_isFinite hb]
  rw [fmul_valid hvalid, mulMag, if_neg hinf]

theorem fdiv_finite (ha : isFinite a = true) (hb : isFinite b = true) (hz : isZero b = false) :
    fdiv a b = pack (sign a != sign b) (roundMag (units (mag a) * 2 ^ 1074) (units (mag b))) := by
  have hvalid : ¬ DivInvalid a b := by
    simp [DivInvalid, isNaN_of_isFinite ha, isNaN_of_isFinite hb, isInf_of_isFinite ha, hz]
  rw [fdiv_valid hvalid, divMag, if_neg (Bool.eq_false_iff.1 (isInf_of_isFinite ha)),
    if_neg (Bool.eq_false_iff.1 (isInf_of_isFinite hb)), if_neg (Bool.eq_false_iff.1 hz)]

/-- The product of two signed numbers of units, where `U` units make one. -/
theorem mul_units (p q : Bool) (m n : Nat) (U : Nat) :
    signFactor p * m / U * (signFactor q * n / U) = signFactor (p != q) * (((m * n : Nat) : ℝ) / (U : Nat)) / U := by
  rw [signFactor_bne, Nat.cast_mul]
  ring

/-- Their quotient. -/
theorem div_units (p q : Bool) (m : Nat) {n U : Nat} (hU : 0 < U) :
    signFactor p * m / U / (signFactor q * n / U) = signFactor (p != q) * (((m * U : Nat) : ℝ) / (n : Nat)) / U := by
  have hU' : (U : ℝ) ≠ 0 := by exact_mod_cast hU.ne'
  rw [← signFactor_div, Nat.cast_mul]
  field_simp

theorem toRat_eq_cast (w : Word) : (toRat w : ℝ) = signFactor (sign w) * units (mag w) / ((2 ^ 1074 : Nat) : ℝ) := by
  rw [toRat_eq, Nat.cast_pow, Nat.cast_ofNat]

/-- The one rounding with the units of one as a natural number. -/
theorem roundsTo_pack_cast (negative : Bool) (num : Nat) {den : Nat} (hden : 0 < den) :
    RoundsTo (signFactor negative * ((num : ℝ) / den) / ((2 ^ 1074 : Nat) : ℝ)) (pack negative (roundMag num den)) := by
  rw [Nat.cast_pow, Nat.cast_ofNat]
  exact roundsTo_pack negative num den hden

theorem roundsTo_fmul (ha : isFinite a = true) (hb : isFinite b = true) :
    RoundsTo ((toRat a : ℝ) * (toRat b : ℝ)) (fmul a b) := by
  rw [fmul_finite ha hb, toRat_eq_cast, toRat_eq_cast, mul_units]
  exact roundsTo_pack_cast _ _ (pow_pos Nat.two_pos 1074)

theorem roundsTo_fdiv (ha : isFinite a = true) (hb : isFinite b = true) (hz : isZero b = false) :
    RoundsTo ((toRat a : ℝ) / (toRat b : ℝ)) (fdiv a b) := by
  rw [fdiv_finite ha hb hz, toRat_eq_cast, toRat_eq_cast, div_units _ _ _ (pow_pos Nat.two_pos 1074)]
  exact roundsTo_pack_cast _ _ (units_pos.2 (Nat.pos_of_ne_zero (isZero_eq_false.1 hz)))

end Sys2Proof.Machine.F64

namespace Sys2Proof.Proofs

open Sys2Proof.Machine

/-- Settles O53: zero sums by running them, infinities by the cases of a sum, and the order of addends because exact sums
commute and equal infinities are one pattern. -/
theorem sumsOfZerosAndInfinities : Obligations.SumsOfZerosAndInfinities :=
  ⟨by decide, by decide, by decide, fun _ hx => F64.fsub_self hx,
    fun _ _ ha hb => ⟨F64.fadd_inf_finite ha hb, F64.fadd_finite_inf ha hb, F64.fsub_inf_finite ha hb,
      F64.fsub_finite_inf ha hb⟩,
    fun _ _ h => F64.fadd_comm h⟩

/-- Settles O54: a valid product or quotient is a sign and a magnitude, the sign from the operands' signs and the magnitude by the
operands' classes. -/
theorem productsAndQuotients : Obligations.ProductsAndQuotients :=
  ⟨fun _ _ h => F64.sign_fmul h, fun _ _ h => F64.sign_fdiv h, fun _ _ hn hz hb => F64.isInf_fdiv_zero hn hz hb,
    fun _ _ ha hb => F64.isZero_fdiv_inf ha hb, by decide, fun _ _ h => F64.fmul_comm h⟩

/-- Settles O56: the exact sum in units is rounded once, and a difference is a sum with the second operand negated. -/
theorem sumsAndDifferencesRoundOnce : Obligations.SumsAndDifferencesRoundOnce := by
  intro a b ha hb
  rw [F64.fadd_finite ha hb, F64.fsub_finite ha hb, sub_eq_add_neg, ← F64.toRat_negate]
  exact ⟨F64.roundsTo_sum a b, F64.roundsTo_sum a (F64.negate b)⟩

/-- Settles O57: the exact product and quotient, as fractions of units, are rounded once. -/
theorem productsAndQuotientsRoundOnce : Obligations.ProductsAndQuotientsRoundOnce :=
  fun _ _ ha hb => ⟨F64.roundsTo_fmul ha hb, F64.roundsTo_fdiv ha hb⟩

end Sys2Proof.Proofs
end

section
/-! SUPPORT. Square roots (42_arithmetic.md R150, R159): the integer root and its last half digit lie in the same step between two
neighbouring candidates as the exact root, so both round to the same pattern. -/

namespace Sys2Proof.Machine.F64

/-! ### The parts of a root -/

/-- The radicand whose integer root is taken. -/
def sqrtRadicand (m : Nat) : Nat := significand m * 2 ^ (108 + (scale m + 1074) % 2)

/-- The power of two, in units, that the integer root counts. -/
def sqrtShift (m : Nat) : Nat := (scale m + 1074) / 2 - 54

/-- Twice the integer root, and one more where the root is inexact. -/
def sqrtTwice (m : Nat) : Nat :=
  2 * isqrt (sqrtRadicand m) + if isqrt (sqrtRadicand m) * isqrt (sqrtRadicand m) = sqrtRadicand m then 0 else 1

theorem sqrtMag_eq (m : Nat) : sqrtMag m = roundMag (sqrtTwice m * 2 ^ sqrtShift m) 2 := rfl

variable {m : Nat}

theorem significand_pos (h : m ≠ 0) : 0 < significand m := by
  unfold significand
  split <;> omega

/-- The radicand scaled back is the number of units times the units of one (R159). -/
theorem units_mul_one (m : Nat) : units m * 2 ^ 1074 = sqrtRadicand m * (2 ^ sqrtShift m) ^ 2 := by
  have hexp : scale m + 1074 = 108 + (scale m + 1074) % 2 + sqrtShift m * 2 := by
    unfold sqrtShift
    omega
  rw [units, sqrtRadicand, Nat.mul_assoc, ← pow_add, ← pow_mul, Nat.mul_assoc, ← pow_add, ← hexp]

theorem sqrtRadicand_bounds (h : m ≠ 0) : 2 ^ 108 ≤ sqrtRadicand m ∧ sqrtRadicand m < 2 ^ 162 := by
  have hlo := significand_pos h
  have hhi := significand_lt m
  have hbit : (scale m + 1074) % 2 = 0 ∨ (scale m + 1074) % 2 = 1 := by omega
  unfold sqrtRadicand
  obtain hbit | hbit := hbit <;> rw [hbit] <;> omega

/-- The integer root has at least 55 binary digits. -/
theorem isqrt_bounds (h : m ≠ 0) : 2 ^ 54 ≤ isqrt (sqrtRadicand m) ∧ isqrt (sqrtRadicand m) < 2 ^ 81 := by
  obtain ⟨hlo, hhi⟩ := sqrtRadicand_bounds h
  obtain ⟨hle, hlt⟩ := isqrt_spec (sqrtRadicand m)
  constructor
  · by_contra hc
    have : (isqrt (sqrtRadicand m) + 1) * (isqrt (sqrtRadicand m) + 1) ≤ 2 ^ 54 * 2 ^ 54 :=
      Nat.mul_le_mul (by omega) (by omega)
    omega
  · by_contra hc
    have : 2 ^ 81 * 2 ^ 81 ≤ isqrt (sqrtRadicand m) * isqrt (sqrtRadicand m) := Nat.mul_le_mul (by omega) (by omega)
    omega

theorem sqrtShift_le (h : m < infMag) : sqrtShift m ≤ 1505 := by
  unfold sqrtShift scale
  rw [infMag] at h
  omega

theorem sqrtTwice_bounds (h : m ≠ 0) : 2 ^ 55 ≤ sqrtTwice m ∧ sqrtTwice m < 2 ^ 83 := by
  obtain ⟨hlo, hhi⟩ := isqrt_bounds h
  unfold sqrtTwice
  split <;> omega

/-- The root of a finite number is finite. -/
theorem sqrtMag_lt_infMag (h0 : m ≠ 0) (h : m < infMag) : sqrtMag m < infMag := by
  refine Nat.lt_of_le_of_ne (sqrtMag_le m) fun he => ?_
  rw [sqrtMag_eq, roundMag_eq_infMag _ 2 Nat.two_pos] at he
  have hshift : 2 ^ sqrtShift m ≤ 2 ^ 1961 :=
    pow_le_pow_right₀ Nat.one_lt_two.le ((sqrtShift_le h).trans (by decide))
  have hsmall : sqrtTwice m * 2 ^ sqrtShift m ≤ 2 ^ 83 * 2 ^ 1961 :=
    Nat.mul_le_mul (Nat.le_of_lt (sqrtTwice_bounds h0).2) hshift
  have hpos : 0 < 2 ^ 2044 := pow_pos Nat.two_pos 2044
  rw [← pow_add] at hsmall
  generalize 2 ^ (83 + 1961) = P at *
  omega

/-- The root of a number above zero is above zero: one unit would be nearer than none. -/
theorem sqrtMag_pos (h0 : m ≠ 0) (h : m < infMag) : 0 < sqrtMag m := by
  refine Nat.pos_of_ne_zero fun he => ?_
  have hfin := sqrtMag_lt_infMag h0 h
  have hone : units 1 = 1 := by decide
  have hbig : 2 ^ 55 * 1 ≤ sqrtTwice m * 2 ^ sqrtShift m :=
    Nat.mul_le_mul (sqrtTwice_bounds h0).1 (Nat.two_pow_pos _)
  rw [sqrtMag_eq] at he hfin
  have hnear := (roundMag_nearest _ 2 Nat.two_pos hfin 1).1
  rw [he, units_zero, hone] at hnear
  generalize sqrtTwice m * 2 ^ sqrtShift m = N at *
  have hleft := abs_cases (((2 * 0 : Nat) : Int) - N)
  have hright := abs_cases (((2 * 1 : Nat) : Int) - N)
  omega

/-! ### Two numbers in the same step -/

/-- Strictly between `n` and `n + 1` steps of size `d`. -/
def InStep (n : Nat) (d X : ℝ) : Prop := n * d < X ∧ X < (n + 1) * d

variable {n : Nat} {d X Y : ℝ}

theorem InStep.mul_lt (hd : 0 < d) (h : InStep n d X) {j : Int} (hj : j ≤ n) : j * d < X :=
  have hle : (j : ℝ) ≤ (n : ℝ) := by exact_mod_cast hj
  (mul_le_mul_of_nonneg_right hle hd.le).trans_lt h.1

theorem InStep.mul_le_iff (hd : 0 < d) (h : InStep n d X) (j : Int) : j * d ≤ X ↔ j ≤ n := by
  refine ⟨fun hj => ?_, fun hj => (h.mul_lt hd hj).le⟩
  have hlt : (j : ℝ) < ((n + 1 : Int) : ℝ) := by
    push_cast
    exact lt_of_mul_lt_mul_right (hj.trans_lt h.2) hd.le
  exact Int.lt_add_one_iff.1 (Int.cast_lt.1 hlt)

/-- Two numbers in one step lie on the same side of every multiple of the step. -/
theorem InStep.same_side (hd : 0 < d) (hX : InStep n d X) (hY : InStep n d Y) (j : Int) :
    (X < j * d ∧ Y < j * d) ∨ (j * d < X ∧ j * d < Y) := by
  by_cases hj : j ≤ n
  · exact .inr ⟨hX.mul_lt hd hj, hY.mul_lt hd hj⟩
  · exact .inl ⟨not_le.1 fun h => hj ((hX.mul_le_iff hd j).1 h), not_le.1 fun h => hj ((hY.mul_le_iff hd j).1 h)⟩

/-- Numbers on the same side of the middle of two candidates are nearer to the same one. -/
theorem nearer_of_same_side {r c : ℝ} (hne : r ≠ c) (h : |r - Y| ≤ |c - Y|)
    (hside : (X < (r + c) / 2 ∧ Y < (r + c) / 2) ∨ ((r + c) / 2 < X ∧ (r + c) / 2 < Y)) : |r - X| < |c - X| := by
  have hY : (r - c) * (r + c - 2 * Y) ≤ 0 := by linarith [sq_le_sq.2 h]
  suffices hX : (r - c) * (r + c - 2 * X) < 0 from sq_lt_sq.1 (by linarith)
  rcases lt_or_gt_of_ne hne with hlt | hgt <;> rcases hside with ⟨h1, h2⟩ | ⟨h1, h2⟩
  · exact mul_neg_of_neg_of_pos (by linarith) (by linarith)
  · exact absurd hY (not_le.2 (mul_pos_of_neg_of_neg (by linarith) (by linarith)))
  · exact absurd hY (not_le.2 (mul_pos (by linarith) (by linarith)))
  · exact mul_neg_of_pos_of_neg (by linarith) (by linarith)

/-! ### Candidates as multiples of the step -/

/-- A size of at least 2^(53 + k) is a multiple of 2^k. -/
theorem units_multiple {k : Nat} (h : 2 ^ (53 + k) ≤ units m) : ∃ j, units m = j * 2 ^ k := by
  have hk : k < scale m := by
    by_contra hc
    have hlt : units m < 2 ^ 53 * 2 ^ k :=
      Nat.lt_of_lt_of_le (Nat.mul_lt_mul_of_pos_right (significand_lt m) (Nat.two_pow_pos _))
        (Nat.mul_le_mul_left _ (Nat.pow_le_pow_right Nat.two_pos (not_lt.1 hc)))
    rw [pow_add] at h
    omega
  refine ⟨significand m * 2 ^ (scale m - k), ?_⟩
  rw [units, Nat.mul_assoc, ← pow_add, Nat.sub_add_cancel hk.le]

theorem value_multiple {k : Nat} {c : Word} (h : (2 : Int) ^ (53 + k) ≤ value c) : ∃ j : Int, value c = j * 2 ^ k := by
  have hsign : sign c = false := (value_pos.1 (lt_of_lt_of_le (by positivity) h)).1
  rw [value_of_not_sign hsign] at h ⊢
  obtain ⟨j, hj⟩ := units_multiple (m := mag c) (k := k) (by exact_mod_cast h)
  exact ⟨j, by rw [hj]; push_cast; rfl⟩

/-- Every power of two in the range of normal numbers has a pattern. -/
theorem exists_value_two_pow {k : Nat} (hk : k ≤ 2000) : ∃ c, isFinite c = true ∧ value c = 2 ^ (54 + k) := by
  have hfin : (k + 2) * 2 ^ 52 + 2 ^ 52 < infMag := by
    rw [infMag]
    omega
  have hlt : (k + 2) * 2 ^ 52 + 2 ^ 52 < 2 ^ 63 := hfin.trans (by decide)
  refine ⟨pack false ((k + 2) * 2 ^ 52 + 2 ^ 52), ?_, ?_⟩
  · rw [isFinite_iff, mag_pack _ hlt]
    exact hfin
  · rw [value_of_not_sign (sign_pack _ hlt), mag_pack _ hlt, units_of_parts _ _ (by decide) (.inr (Nat.le_refl _)),
      ← pow_add, show 52 + (k + 2) = 54 + k by omega]
    push_cast
    rfl

/-! ### Rounding what lies in a step -/

/-- No finite pattern is nearer to `X` units, and one that is as near and differs leaves `r` even: the middle clause of
`RoundsTo`, in units. -/
def NearestUnits (X : ℝ) (r : Word) : Prop :=
  ∀ c, isFinite c = true → |(value r : ℝ) - X| ≤ |(value c : ℝ) - X| ∧
    (|(value r : ℝ) - X| = |(value c : ℝ) - X| → toRat c = toRat r ∨ r.toNat % 2 = 0)

theorem distance_units (c : Word) (X : ℝ) : |(toRat c : ℝ) - X / 2 ^ 1074| = |(value c : ℝ) - X| / 2 ^ 1074 := by
  have hU : (0 : ℝ) < 2 ^ 1074 := by positivity
  rw [toRat_eq_value, ← sub_div, abs_div, abs_of_pos hU]

theorem nearestUnits_iff {X : ℝ} {r : Word} :
    (∀ c, isFinite c = true → |(toRat r : ℝ) - X / 2 ^ 1074| ≤ |(toRat c : ℝ) - X / 2 ^ 1074| ∧
      (|(toRat r : ℝ) - X / 2 ^ 1074| = |(toRat c : ℝ) - X / 2 ^ 1074| → toRat c = toRat r ∨ r.toNat % 2 = 0)) ↔
      NearestUnits X r := by
  have hU : (0 : ℝ) < 2 ^ 1074 := by positivity
  simp only [NearestUnits, distance_units, div_le_div_iff_of_pos_right hU, div_left_inj' hU.ne']

/-- A number of units in the same step has the same nearest pattern: the middles between candidates from 2^(54 + k) on are
multiples of the step, and smaller candidates are further away than 2^(54 + k). -/
theorem NearestUnits.of_inStep {k : Nat} {r : Word} (hn : 2 ^ 54 ≤ n) (hk : k ≤ 2000) (hX : InStep n (2 ^ k) X)
    (hY : InStep n (2 ^ k) Y) (h : NearestUnits Y r) : NearestUnits X r := by
  have hd : (0 : ℝ) < 2 ^ k := by positivity
  obtain ⟨p, hpfin, hp⟩ := exists_value_two_pow hk
  have hpn : (value p : ℝ) ≤ n * 2 ^ k := by
    rw [hp, pow_add]
    push_cast
    exact mul_le_mul_of_nonneg_right (by exact_mod_cast hn) hd.le
  have hpow : value p = 2 ^ (53 + (k + 1)) := by
    rw [hp]
    congr 1
    omega
  have hfar : ∀ {Z : ℝ} {c : Word}, InStep n (2 ^ k) Z → value c < value p →
      |(value p : ℝ) - Z| < |(value c : ℝ) - Z| := by
    intro Z c hZ hc
    have hc' : (value c : ℝ) < value p := by exact_mod_cast hc
    rw [abs_of_neg (sub_neg.2 (hpn.trans_lt hZ.1)), abs_of_neg (sub_neg.2 (hc'.trans (hpn.trans_lt hZ.1)))]
    linarith
  have hr : value p ≤ value r := by
    by_contra hc
    exact absurd (h p hpfin).1 (not_le.2 (hfar hY (not_le.1 hc)))
  have hnear : ∀ c, isFinite c = true → value p ≤ value c → value r ≠ value c →
      |(value r : ℝ) - X| < |(value c : ℝ) - X| := by
    intro c hc hpc hne
    obtain ⟨i, hi⟩ := value_multiple (hpow ▸ hr)
    obtain ⟨j, hj⟩ := value_multiple (hpow ▸ hpc)
    have hmid : ((value r : ℝ) + value c) / 2 = ((i + j : Int) : ℝ) * 2 ^ k := by
      rw [hi, hj]
      push_cast
      ring
    refine nearer_of_same_side (by exact_mod_cast hne) (h c hc).1 ?_
    rw [hmid]
    exact hX.same_side hd hY _
  intro c hc
  by_cases hrc : value r = value c
  · rw [hrc]
    exact ⟨le_refl _, fun _ => .inl (by rw [toRat, toRat, hrc])⟩
  · have hlt : |(value r : ℝ) - X| < |(value c : ℝ) - X| := by
      rcases lt_or_ge (value c) (value p) with hcp | hpc
      · by_cases hrp : value r = value p
        · rw [hrp]
          exact hfar hX hcp
        · exact (hnear p hpfin le_rfl hrp).trans (hfar hX hcp)
      · exact hnear c hc hpc hrc
    exact ⟨hlt.le, fun he => absurd he hlt.ne⟩

/-- The overflow threshold of `RoundsTo`, in units, is a multiple of every step. -/
theorem threshold_units {k : Nat} (hk : k ≤ 2000) :
    ((2 : ℝ) ^ 1024 - 2 ^ 970) * 2 ^ 1074 = (((2 ^ 54 - 1) * 2 ^ (2044 - k) : Int) : ℝ) * 2 ^ k := by
  have h1 : (2 : ℝ) ^ 1024 = 2 ^ 54 * 2 ^ 970 := by rw [← pow_add]
  have h2 : (2 : ℝ) ^ 970 * 2 ^ 1074 = 2 ^ (2044 - k) * 2 ^ k := by
    rw [← pow_add, ← pow_add]
    congr 1
    omega
  rw [h1]
  generalize (2 : ℝ) ^ 970 = A at *
  generalize (2 : ℝ) ^ 1074 = B at *
  push_cast
  linear_combination (2 ^ 54 - 1) * h2

/-- Two numbers of units in the same step round to the same pattern. -/
theorem RoundsTo.of_inStep {k : Nat} {r : Word} (hn : 2 ^ 54 ≤ n) (hk : k ≤ 2000) (hX : InStep n (2 ^ k) X)
    (hY : InStep n (2 ^ k) Y) (h : RoundsTo (Y / 2 ^ 1074) r) : RoundsTo (X / 2 ^ 1074) r := by
  have hd : (0 : ℝ) < 2 ^ k := by positivity
  have hU : (0 : ℝ) < 2 ^ 1074 := by positivity
  have hpos : ∀ {Z : ℝ}, InStep n (2 ^ k) Z → 0 < Z / 2 ^ 1074 := fun hZ =>
    div_pos ((by positivity : (0 : ℝ) ≤ n * 2 ^ k).trans_lt hZ.1) hU
  have hover : ∀ {Z : ℝ}, InStep n (2 ^ k) Z →
      ((2 : ℝ) ^ 1024 - 2 ^ 970 ≤ |Z / 2 ^ 1074| ↔ ((2 ^ 54 - 1) * 2 ^ (2044 - k) : Int) ≤ n) := fun hZ => by
    rw [abs_of_pos (hpos hZ), le_div_iff₀ hU, threshold_units hk, hZ.mul_le_iff hd]
  obtain ⟨hnan, hinf, hnear, -, hsign⟩ := h
  refine ⟨hnan, hinf.trans ((hover hY).trans (hover hX).symm), fun hfin => ?_, fun hneg => absurd hneg (hpos hX).not_gt,
    fun _ => hsign (hpos hY)⟩
  exact nearestUnits_iff.2 ((nearestUnits_iff.1 (hnear hfin)).of_inStep hn hk hX hY)

/-! ### The root rounds correctly -/

/-- The exact root in units. -/
theorem sqrt_toRat {x : Word} (hs : sign x = false) :
    Real.sqrt (toRat x : ℝ) = Real.sqrt (sqrtRadicand (mag x)) * 2 ^ sqrtShift (mag x) / 2 ^ 1074 := by
  have hU : (0 : ℝ) < 2 ^ 1074 := by positivity
  have hunits : (units (mag x) : ℝ) * 2 ^ 1074 = sqrtRadicand (mag x) * (2 ^ sqrtShift (mag x)) ^ 2 := by
    simpa only [Nat.cast_mul, Nat.cast_pow, Nat.cast_ofNat] using congrArg (Nat.cast : ℕ → ℝ) (units_mul_one (mag x))
  have hsquare : (toRat x : ℝ) = (Real.sqrt (sqrtRadicand (mag x)) * 2 ^ sqrtShift (mag x) / 2 ^ 1074) ^ 2 := by
    rw [toRat_eq_value, value_of_not_sign hs, Int.cast_natCast, div_pow, mul_pow, Real.sq_sqrt (Nat.cast_nonneg _),
      ← hunits, pow_two, mul_div_mul_right _ _ hU.ne']
  rw [hsquare, Real.sqrt_sq (by positivity)]

theorem roundsTo_sqrtMag (h0 : m ≠ 0) (h : m < infMag) :
    RoundsTo (Real.sqrt (sqrtRadicand m) * 2 ^ sqrtShift m / 2 ^ 1074) (pack false (sqrtMag m)) := by
  obtain ⟨hle, hlt⟩ := isqrt_spec (sqrtRadicand m)
  have hround : RoundsTo ((sqrtTwice m : ℝ) / 2 * 2 ^ sqrtShift m / 2 ^ 1074) (pack false (sqrtMag m)) := by
    have := roundsTo_pack false (sqrtTwice m * 2 ^ sqrtShift m) 2 Nat.two_pos
    rwa [signFactor, if_neg Bool.false_ne_true, one_mul, Nat.cast_mul, Nat.cast_pow, Nat.cast_ofNat, mul_div_right_comm,
      ← sqrtMag_eq] at this
  have hd : (0 : ℝ) < 2 ^ sqrtShift m := by positivity
  by_cases hexact : isqrt (sqrtRadicand m) * isqrt (sqrtRadicand m) = sqrtRadicand m
  · have htwice : (sqrtTwice m : ℝ) / 2 = Real.sqrt (sqrtRadicand m) := by
      rw [sqrtTwice, if_pos hexact, Nat.add_zero, Nat.cast_mul, Nat.cast_ofNat, mul_div_cancel_left₀ _ two_ne_zero,
        eq_comm, Real.sqrt_eq_iff_mul_self_eq (Nat.cast_nonneg _) (Nat.cast_nonneg _)]
      exact_mod_cast hexact.symm
    rwa [htwice] at hround
  · have htwice : (sqrtTwice m : ℝ) / 2 = isqrt (sqrtRadicand m) + 1 / 2 := by
      rw [sqrtTwice, if_neg hexact]
      push_cast
      ring
    rw [htwice] at hround
    refine hround.of_inStep (isqrt_bounds h0).1 ((sqrtShift_le h).trans (by decide)) ⟨?_, ?_⟩ ⟨?_, ?_⟩
    · refine mul_lt_mul_of_pos_right (Real.lt_sqrt_of_sq_lt ?_) hd
      rw [pow_two]
      exact_mod_cast Nat.lt_of_le_of_ne hle hexact
    · refine mul_lt_mul_of_pos_right ((Real.sqrt_lt' (by positivity)).2 ?_) hd
      rw [pow_two]
      exact_mod_cast hlt
    · exact mul_lt_mul_of_pos_right (by linarith) hd
    · exact mul_lt_mul_of_pos_right (by linarith) hd

theorem roundsTo_zero : RoundsTo 0 (pack false 0) := by
  have hround : roundMag 0 1 = 0 := by decide
  have := roundsTo_pack false 0 1 Nat.one_pos
  rwa [hround, Nat.cast_zero, zero_div, mul_zero, zero_div] at this

theorem roundsTo_fsqrt {x : Word} (hx : isFinite x = true) (hs : sign x = false) :
    RoundsTo (Real.sqrt (toRat x : ℝ)) (fsqrt x) := by
  cases hz : isZero x with
  | true =>
    have hpack : x = pack false 0 := by rw [← isZero_iff.1 hz, ← hs, pack_sign_mag]
    rw [fsqrt_zero hz, toRat_eq_zero (isZero_iff.1 hz), Rat.cast_zero, Real.sqrt_zero, hpack]
    exact roundsTo_zero
  | false =>
    rw [fsqrt_positive hx hz hs, sqrt_toRat hs]
    exact roundsTo_sqrtMag (isZero_eq_false.1 hz) (isFinite_iff.1 hx)

/-- The root of a positive number is a positive number. -/
theorem fsqrt_positive_class {x : Word} (hx : isFinite x = true) (hz : isZero x = false) (hs : sign x = false) :
    isFinite (fsqrt x) = true ∧ isZero (fsqrt x) = false ∧ sign (fsqrt x) = false := by
  have h0 := isZero_eq_false.1 hz
  have hfin := isFinite_iff.1 hx
  have hlt : sqrtMag (mag x) < 2 ^ 63 := Nat.lt_of_le_of_lt (sqrtMag_le _) (by decide)
  rw [fsqrt_positive hx hz hs, isFinite_iff, isZero_eq_false, mag_pack _ hlt, sign_pack _ hlt]
  exact ⟨sqrtMag_lt_infMag h0 hfin, (sqrtMag_pos h0 hfin).ne', rfl⟩

end Sys2Proof.Machine.F64

namespace Sys2Proof.Proofs

open Sys2Proof.Machine

/-- Settles O55: zeros and infinity are cases of their own, and the rounded root of any other positive number is neither. -/
theorem rootsOfZerosAndInfinity : Obligations.RootsOfZerosAndInfinity :=
  ⟨fun _ hz => F64.fsqrt_zero hz, by decide, fun _ hx hz hs => F64.fsqrt_positive_class hx hz hs⟩

/-- Settles O58: where the integer root is inexact, its last half digit keeps the rounded number in the step of the exact root. -/
theorem squareRootsRoundOnce : Obligations.SquareRootsRoundOnce := fun _ hx hs => F64.roundsTo_fsqrt hx hs

end Sys2Proof.Proofs
end
